-- ==== Sys2Proof/Word.lean ====
section
/-! DEFINITION. The word types of the CHIP-8 core: 8-bit bytes and 16-bit words (spec rules R6, R9, R31, R90). -/

namespace Sys2Proof

/-- An unsigned 8-bit value: a memory byte, a general register, a timer (R31, R37, R38, R60). -/
abbrev Byte := BitVec 8

/-- A 16-bit value: an instruction word, `I`, `pc`, a stack entry (R30, R90). -/
abbrev Word := BitVec 16

/-- `zext_16(nnn)`: the only widening the core uses (R9, R92). -/
abbrev zext16 (a : BitVec 12) : Word := a.setWidth 16

end Sys2Proof
end

