-- ==== Sys2Proof/Config.lean ====
section
/-! DEFINITION. What is fixed for this hardware (rule R6) and the two parameters a model takes (rule R7):
`FLAG_WRITE_ORDER` and `FONT`. Their defaults are in Sys2Proof/Machine/Defaults.lean. The other values of rule R6 stand
in the types of the state: 16 registers of 8 bits, 16 stack entries of 16 bits, `SP` 0 to 16, 64 x 32 pixels, 4096 bytes
of memory, 80 font bytes. -/

namespace Sys2Proof
namespace Config

/-- `PROG_BASE`: where the image is loaded and where `pc` starts (R6, R292). -/
abbrev progBase : Nat := 0x200

/-- `PROG_MAX`: the longest image, 3584 bytes (R6, R293). -/
abbrev progMax : Nat := 0xE00

end Config

/-- `FLAG_WRITE_ORDER` (R7, R174): the order of the two writes of 8xy4, 8xy5, 8xy6, 8xy7 and 8xyE. -/
inductive FlagWriteOrder where
  /-- `VF <- f;  V[x] <- r`: the default, the source's written order. -/
  | flagThenResult
  /-- `V[x] <- r;  VF <- f`. -/
  | resultThenFlag
  deriving DecidableEq, Repr

/-- The parameters of rule R7. DESIGN CHOICE (log 2): the machine's state carries them, and no operation changes them,
so that a statement about every state covers every admitted value. -/
structure Params where
  /-- `FLAG_WRITE_ORDER` (R174). -/
  flagWriteOrder : FlagWriteOrder
  /-- `FONT`: the 80 bytes that reset puts at 0x000 (R291). -/
  font : Vector Byte 80
  deriving DecidableEq, Repr

end Sys2Proof
end

