-- ==== Sys2Proof/Syntax.lean ====
section
/-! DEFINITION. The 29 instructions of the opcode table (rule R97), one constructor each, and the operation names of
rule R98. -/

namespace Sys2Proof

/-- A register index: "always a 4-bit instruction field, so every index 0 to 15 is legal" (R31). -/
abbrev Reg := Fin 16

/-- `VF`, the name of `V[15]` (R31, R32). -/
abbrev VF : Reg := 15

/-- One constructor per row of rule R97, in its order. The operands are those of rule R91: `x`, `y` register indices,
`kk` a byte, `nnn` an address, `n` a count. -/
inductive Instr where
  /-- 00E0 `CLS` (R224). -/
  | cls
  /-- 00EE `RET` (R150). -/
  | ret
  /-- 1nnn `JP nnn` (R151). -/
  | jp (nnn : BitVec 12)
  /-- 2nnn `CALL nnn` (R152). -/
  | call (nnn : BitVec 12)
  /-- 3xkk `SE Vx, kk` (R153). -/
  | seVxKk (x : Reg) (kk : Byte)
  /-- 4xkk `SNE Vx, kk` (R154). -/
  | sneVxKk (x : Reg) (kk : Byte)
  /-- 5xy0 `SE Vx, Vy` (R155). -/
  | seVxVy (x y : Reg)
  /-- 6xkk `LD Vx, kk` (R175). -/
  | ldVxKk (x : Reg) (kk : Byte)
  /-- 7xkk `ADD Vx, kk` (R176). -/
  | addVxKk (x : Reg) (kk : Byte)
  /-- 8xy0 `LD Vx, Vy` (R177). -/
  | ldVxVy (x y : Reg)
  /-- 8xy1 `OR Vx, Vy` (R178). -/
  | orVxVy (x y : Reg)
  /-- 8xy2 `AND Vx, Vy` (R179). -/
  | andVxVy (x y : Reg)
  /-- 8xy3 `XOR Vx, Vy` (R180). -/
  | xorVxVy (x y : Reg)
  /-- 8xy4 `ADD Vx, Vy` (R181). -/
  | addVxVy (x y : Reg)
  /-- 8xy5 `SUB Vx, Vy` (R182). -/
  | subVxVy (x y : Reg)
  /-- 8xy6 `SHR Vx {, Vy}` (R183); `y` is encoded but not read. -/
  | shrVx (x y : Reg)
  /-- 8xy7 `SUBN Vx, Vy` (R184). -/
  | subnVxVy (x y : Reg)
  /-- 8xyE `SHL Vx {, Vy}` (R185); `y` is encoded but not read. -/
  | shlVx (x y : Reg)
  /-- 9xy0 `SNE Vx, Vy` (R156). -/
  | sneVxVy (x y : Reg)
  /-- Annn `LD I, nnn` (R200). -/
  | ldINnn (nnn : BitVec 12)
  /-- Dxyn `DRW Vx, Vy, n` (R225). -/
  | drw (x y : Reg) (n : BitVec 4)
  /-- Fx07 `LD Vx, DT` (R240). -/
  | ldVxDt (x : Reg)
  /-- Fx0A `LD Vx, K` (R241). -/
  | ldVxK (x : Reg)
  /-- Fx15 `LD DT, Vx` (R242). -/
  | ldDtVx (x : Reg)
  /-- Fx18 `LD ST, Vx` (R243). -/
  | ldStVx (x : Reg)
  /-- Fx29 `LD F, Vx` (R201). -/
  | ldFVx (x : Reg)
  /-- Fx33 `LD B, Vx` (R202). -/
  | ldBVx (x : Reg)
  /-- Fx55 `LD [I], Vx` (R203). -/
  | ldMemVx (x : Reg)
  /-- Fx65 `LD Vx, [I]` (R204). -/
  | ldVxMem (x : Reg)
  deriving DecidableEq, Repr

/-- The enumeration of `op` (R98): one name per row of rule R97, and `unknown`. -/
inductive Op where
  | cls | ret | jp | call | seVxKk | sneVxKk | seVxVy | ldVxKk | addVxKk | ldVxVy
  | orVxVy | andVxVy | xorVxVy | addVxVy | subVxVy | shrVx | subnVxVy | shlVx | sneVxVy
  | ldINnn | drw | ldVxDt | ldVxK | ldDtVx | ldStVx | ldFVx | ldBVx | ldMemVx | ldVxMem
  /-- Every word that matches no row of rule R97 (R99). -/
  | unknown
  deriving DecidableEq, Repr

/-- The operation an instruction is (R98). -/
def Instr.op : Instr → Op
  | .cls => .cls
  | .ret => .ret
  | .jp _ => .jp
  | .call _ => .call
  | .seVxKk _ _ => .seVxKk
  | .sneVxKk _ _ => .sneVxKk
  | .seVxVy _ _ => .seVxVy
  | .ldVxKk _ _ => .ldVxKk
  | .addVxKk _ _ => .addVxKk
  | .ldVxVy _ _ => .ldVxVy
  | .orVxVy _ _ => .orVxVy
  | .andVxVy _ _ => .andVxVy
  | .xorVxVy _ _ => .xorVxVy
  | .addVxVy _ _ => .addVxVy
  | .subVxVy _ _ => .subVxVy
  | .shrVx _ _ => .shrVx
  | .subnVxVy _ _ => .subnVxVy
  | .shlVx _ _ => .shlVx
  | .sneVxVy _ _ => .sneVxVy
  | .ldINnn _ => .ldINnn
  | .drw _ _ _ => .drw
  | .ldVxDt _ => .ldVxDt
  | .ldVxK _ => .ldVxK
  | .ldDtVx _ => .ldDtVx
  | .ldStVx _ => .ldStVx
  | .ldFVx _ => .ldFVx
  | .ldBVx _ => .ldBVx
  | .ldMemVx _ => .ldMemVx
  | .ldVxMem _ => .ldVxMem

end Sys2Proof
end

