-- ==== Sys2Proof/WellFormed.lean ====
section
/-! DEFINITION. The checks on what comes from outside the core. An `Instr` needs none: its operand types admit exactly
the values of the fields of rule R91, every one of which is legal (R31, R92). What can be ill-formed is the program
image (R293) and the `FONT` parameter (R291). -/

namespace Sys2Proof

/-- A program image `reset` accepts: at most 0xE00 bytes (R292, R293). -/
abbrev Image.wf (image : List Byte) : Prop := image.length ≤ Config.progMax

/-- The shape the source gives the `FONT` bytes: "every byte has a zero low nibble, as the source requires" (R291). -/
abbrev Font.wf (font : Vector Byte 80) : Prop := ∀ b ∈ font.toList, b.extractLsb' 0 4 = 0

end Sys2Proof
end

