-- ==== Sys2Proof/Decode.lean ====
section
/-! DEFINITION. The decoder (rules R90 to R99), a pure total function, and the encoder, written from the same table. -/

namespace Sys2Proof

/-! ## Field views (R91) -/

/-- `family` = `w[15:12]`. -/
def familyOf (w : Word) : BitVec 4 := w.extractLsb' 12 4

/-- `x` = `w[11:8]`. -/
def xOf (w : Word) : Reg := (w.extractLsb' 8 4).toFin

/-- `y` = `w[7:4]`. -/
def yOf (w : Word) : Reg := (w.extractLsb' 4 4).toFin

/-- `n` = `w[3:0]`. -/
def nOf (w : Word) : BitVec 4 := w.extractLsb' 0 4

/-- `kk` = `w[7:0]`. -/
def kkOf (w : Word) : Byte := w.extractLsb' 0 8

/-- `nnn` = `w[11:0]`. -/
def nnnOf (w : Word) : BitVec 12 := w.extractLsb' 0 12

/-! ## The decoder -/

/-- The opcode map by family (R94, R95, R96): the operation a word selects. -/
def selectOp (w : Word) : Op :=
  match familyOf w with
  | 0x0#4 =>
    match nnnOf w with
    | 0x0E0#12 => .cls
    | 0x0EE#12 => .ret
    | _ => .unknown
  | 0x1#4 => .jp
  | 0x2#4 => .call
  | 0x3#4 => .seVxKk
  | 0x4#4 => .sneVxKk
  | 0x5#4 =>
    match nOf w with
    | 0x0#4 => .seVxVy
    | _ => .unknown
  | 0x6#4 => .ldVxKk
  | 0x7#4 => .addVxKk
  | 0x8#4 =>
    match nOf w with
    | 0x0#4 => .ldVxVy
    | 0x1#4 => .orVxVy
    | 0x2#4 => .andVxVy
    | 0x3#4 => .xorVxVy
    | 0x4#4 => .addVxVy
    | 0x5#4 => .subVxVy
    | 0x6#4 => .shrVx
    | 0x7#4 => .subnVxVy
    | 0xE#4 => .shlVx
    | _ => .unknown
  | 0x9#4 =>
    match nOf w with
    | 0x0#4 => .sneVxVy
    | _ => .unknown
  | 0xA#4 => .ldINnn
  | 0xD#4 => .drw
  | 0xF#4 =>
    match kkOf w with
    | 0x07#8 => .ldVxDt
    | 0x0A#8 => .ldVxK
    | 0x15#8 => .ldDtVx
    | 0x18#8 => .ldStVx
    | 0x29#8 => .ldFVx
    | 0x33#8 => .ldBVx
    | 0x55#8 => .ldMemVx
    | 0x65#8 => .ldVxMem
    | _ => .unknown
  | _ => .unknown

/-- The decoder's record (R93): the operation and the operand views, all of them present in every word. -/
structure Decoded where
  op : Op
  family : BitVec 4
  x : Reg
  y : Reg
  n : BitVec 4
  kk : Byte
  nnn : BitVec 12
  deriving DecidableEq, Repr

/-- `decode(w)` of rule R93: "Pure, total, no failure cases". -/
def decodeFields (w : Word) : Decoded :=
  { op := selectOp w, family := familyOf w, x := xOf w, y := yOf w, n := nOf w, kk := kkOf w, nnn := nnnOf w }

/-- The instruction a decoded record stands for; none for `UNKNOWN`, which is no row of the opcode table (R99). -/
def Decoded.instr? (d : Decoded) : Option Instr :=
  match d.op with
  | .cls => some .cls
  | .ret => some .ret
  | .jp => some (.jp d.nnn)
  | .call => some (.call d.nnn)
  | .seVxKk => some (.seVxKk d.x d.kk)
  | .sneVxKk => some (.sneVxKk d.x d.kk)
  | .seVxVy => some (.seVxVy d.x d.y)
  | .ldVxKk => some (.ldVxKk d.x d.kk)
  | .addVxKk => some (.addVxKk d.x d.kk)
  | .ldVxVy => some (.ldVxVy d.x d.y)
  | .orVxVy => some (.orVxVy d.x d.y)
  | .andVxVy => some (.andVxVy d.x d.y)
  | .xorVxVy => some (.xorVxVy d.x d.y)
  | .addVxVy => some (.addVxVy d.x d.y)
  | .subVxVy => some (.subVxVy d.x d.y)
  | .shrVx => some (.shrVx d.x d.y)
  | .subnVxVy => some (.subnVxVy d.x d.y)
  | .shlVx => some (.shlVx d.x d.y)
  | .sneVxVy => some (.sneVxVy d.x d.y)
  | .ldINnn => some (.ldINnn d.nnn)
  | .drw => some (.drw d.x d.y d.n)
  | .ldVxDt => some (.ldVxDt d.x)
  | .ldVxK => some (.ldVxK d.x)
  | .ldDtVx => some (.ldDtVx d.x)
  | .ldStVx => some (.ldStVx d.x)
  | .ldFVx => some (.ldFVx d.x)
  | .ldBVx => some (.ldBVx d.x)
  | .ldMemVx => some (.ldMemVx d.x)
  | .ldVxMem => some (.ldVxMem d.x)
  | .unknown => none

/-- The instruction a word is, or none for an UNKNOWN word. -/
def decodeWord (w : Word) : Option Instr := (decodeFields w).instr?

/-- `(hi << 8) | lo`: the first byte is the high byte (R66, R120). -/
def wordOfBytes (hi lo : Byte) : Word := hi ++ lo

/-- Why a list of bytes is not read as an instruction. -/
inductive DecodeError where
  /-- The word matches no row of rule R97 (R99). It is no error of the core, which runs it as rule R132 says. -/
  | unknownWord (w : Word)
  /-- Fewer than two bytes are left (R90). -/
  | truncated
  deriving DecidableEq, Repr

/-- Decoding of a list of bytes: the first instruction and the rest of the list (R90, R120). -/
def decode : List Byte → Except DecodeError (Instr × List Byte)
  | hi :: lo :: rest =>
    match decodeWord (wordOfBytes hi lo) with
    | some i => .ok (i, rest)
    | none => .error (.unknownWord (wordOfBytes hi lo))
  | _ => .error .truncated

/-! ## The encoder -/

/-- A register index as a 4-bit field (R91). -/
def regField (r : Reg) : BitVec 4 := BitVec.ofFin r

/-- Format `xkk`. -/
def formXkk (family : BitVec 4) (x : Reg) (kk : Byte) : Word := family ++ regField x ++ kk

/-- Formats `xy` and `xyn`. -/
def formXyn (family : BitVec 4) (x y : Reg) (n : BitVec 4) : Word := family ++ regField x ++ regField y ++ n

/-- The word of an instruction, from the patterns of rule R97. -/
def encode : Instr → Word
  | .cls => 0x00E0#16
  | .ret => 0x00EE#16
  | .jp nnn => 0x1#4 ++ nnn
  | .call nnn => 0x2#4 ++ nnn
  | .seVxKk x kk => formXkk 0x3#4 x kk
  | .sneVxKk x kk => formXkk 0x4#4 x kk
  | .seVxVy x y => formXyn 0x5#4 x y 0x0#4
  | .ldVxKk x kk => formXkk 0x6#4 x kk
  | .addVxKk x kk => formXkk 0x7#4 x kk
  | .ldVxVy x y => formXyn 0x8#4 x y 0x0#4
  | .orVxVy x y => formXyn 0x8#4 x y 0x1#4
  | .andVxVy x y => formXyn 0x8#4 x y 0x2#4
  | .xorVxVy x y => formXyn 0x8#4 x y 0x3#4
  | .addVxVy x y => formXyn 0x8#4 x y 0x4#4
  | .subVxVy x y => formXyn 0x8#4 x y 0x5#4
  | .shrVx x y => formXyn 0x8#4 x y 0x6#4
  | .subnVxVy x y => formXyn 0x8#4 x y 0x7#4
  | .shlVx x y => formXyn 0x8#4 x y 0xE#4
  | .sneVxVy x y => formXyn 0x9#4 x y 0x0#4
  | .ldINnn nnn => 0xA#4 ++ nnn
  | .drw x y n => formXyn 0xD#4 x y n
  | .ldVxDt x => formXkk 0xF#4 x 0x07#8
  | .ldVxK x => formXkk 0xF#4 x 0x0A#8
  | .ldDtVx x => formXkk 0xF#4 x 0x15#8
  | .ldStVx x => formXkk 0xF#4 x 0x18#8
  | .ldFVx x => formXkk 0xF#4 x 0x29#8
  | .ldBVx x => formXkk 0xF#4 x 0x33#8
  | .ldMemVx x => formXkk 0xF#4 x 0x55#8
  | .ldVxMem x => formXkk 0xF#4 x 0x65#8

/-- The two bytes of a word as memory holds them, the high byte first (R66). -/
def bytesOfWord (w : Word) : List Byte := [w.extractLsb' 8 8, w.extractLsb' 0 8]

/-! ## The opcode table as the spec prints it (R97) -/

/-- A row of rule R97: a word `w` is this operation when `w &&& mask = pattern`. -/
structure OpcodeRow where
  op : Op
  pattern : Word
  mask : Word
  deriving DecidableEq, Repr

/-- The 29 rows of rule R97. The decoder does not use them: they are the second account of the same content. -/
def opcodeRows : List OpcodeRow :=
  [⟨.cls, 0x00E0, 0xFFFF⟩, ⟨.ret, 0x00EE, 0xFFFF⟩, ⟨.jp, 0x1000, 0xF000⟩, ⟨.call, 0x2000, 0xF000⟩,
   ⟨.seVxKk, 0x3000, 0xF000⟩, ⟨.sneVxKk, 0x4000, 0xF000⟩, ⟨.seVxVy, 0x5000, 0xF00F⟩,
   ⟨.ldVxKk, 0x6000, 0xF000⟩, ⟨.addVxKk, 0x7000, 0xF000⟩] ++
  [⟨.ldVxVy, 0x8000, 0xF00F⟩, ⟨.orVxVy, 0x8001, 0xF00F⟩, ⟨.andVxVy, 0x8002, 0xF00F⟩,
   ⟨.xorVxVy, 0x8003, 0xF00F⟩, ⟨.addVxVy, 0x8004, 0xF00F⟩, ⟨.subVxVy, 0x8005, 0xF00F⟩,
   ⟨.shrVx, 0x8006, 0xF00F⟩, ⟨.subnVxVy, 0x8007, 0xF00F⟩, ⟨.shlVx, 0x800E, 0xF00F⟩] ++
  [⟨.sneVxVy, 0x9000, 0xF00F⟩, ⟨.ldINnn, 0xA000, 0xF000⟩, ⟨.drw, 0xD000, 0xF000⟩,
   ⟨.ldVxDt, 0xF007, 0xF0FF⟩, ⟨.ldVxK, 0xF00A, 0xF0FF⟩, ⟨.ldDtVx, 0xF015, 0xF0FF⟩,
   ⟨.ldStVx, 0xF018, 0xF0FF⟩, ⟨.ldFVx, 0xF029, 0xF0FF⟩, ⟨.ldBVx, 0xF033, 0xF0FF⟩,
   ⟨.ldMemVx, 0xF055, 0xF0FF⟩, ⟨.ldVxMem, 0xF065, 0xF0FF⟩]

/-! ## The host's view of the table -/

/-- The bytes of the instruction whose bits are `w`, as memory holds them: every bit above `nbits` is 0, and an
instruction is one 16-bit word (R90). -/
def tableBytes (nbits w : Nat) : List Byte := bytesOfWord (BitVec.ofNat 16 (w % 2 ^ nbits))

/-- The instruction the decoder reads from a word of the opcode table; none where it reads none. -/
def decodeTableWord (nbits w : Nat) : Option Instr :=
  match decode (tableBytes nbits w) with
  | .ok (i, _) => some i
  | .error _ => none

end Sys2Proof
end

