-- ==== Sys2Proof/Machine/Defaults.lean ====
section
/-! DEFINITION. The default values of the two parameters of rule R7. -/

namespace Sys2Proof.Machine

/-- The default `FONT` (R291): glyphs 0 to F, five bytes each. PRESUMED (log 4): the spec marks these bytes
`[from general knowledge, not in source]` and takes them as the default (D24). -/
def defaultFont : Vector Byte 80 :=
  Vector.mk
    (#[0xF0, 0x90, 0x90, 0x90, 0xF0, 0x20, 0x60, 0x20, 0x20, 0x70, 0xF0, 0x10, 0xF0, 0x80, 0xF0, 0xF0, 0x10, 0xF0, 0x10, 0xF0] ++
     #[0x90, 0x90, 0xF0, 0x10, 0x10, 0xF0, 0x80, 0xF0, 0x10, 0xF0, 0xF0, 0x80, 0xF0, 0x90, 0xF0, 0xF0, 0x10, 0x20, 0x40, 0x40] ++
     #[0xF0, 0x90, 0xF0, 0x90, 0xF0, 0xF0, 0x90, 0xF0, 0x10, 0xF0, 0xF0, 0x90, 0xF0, 0x90, 0x90, 0xE0, 0x90, 0xE0, 0x90, 0xE0] ++
     #[0xF0, 0x80, 0x80, 0x80, 0xF0, 0xE0, 0x90, 0x90, 0x90, 0xE0, 0xF0, 0x80, 0xF0, 0x80, 0xF0, 0xF0, 0x80, 0xF0, 0x80, 0x80])
    rfl

/-- The default `FLAG_WRITE_ORDER` (R174, the spec's decision D13, log 3). -/
def defaultFlagWriteOrder : FlagWriteOrder := .flagThenResult

/-- The parameters at their defaults (R7). -/
def defaultParams : Params := { flagWriteOrder := defaultFlagWriteOrder, font := defaultFont }

end Sys2Proof.Machine
end

