-- ==== Sys2Proof/Machine/Memory.lean ====
section
/-! DEFINITION. chip8_memory (rules R60 to R77): 4096 bytes as a canonical list of (address, byte) pairs. -/

namespace Sys2Proof.Machine

/-- Memory `M` (R60): the bytes that differ from the reset contents, by strictly rising address. -/
abbrev Memory := List Host.Cell

/-- What an unlisted address reads as: the reset contents with the default font and no image (R48, R291). -/
def resetByte (a : Nat) : Byte := defaultFont.toList.getD a 0x00

/-- The canonical form: addresses strictly rising and below 0x1000, no entry equal to the reset contents. -/
abbrev Memory.wf (m : Memory) : Prop :=
  m.Pairwise (fun c d => c.1 < d.1) ∧ ∀ c ∈ m, c.1 < 0x1000 ∧ c.2 ≠ resetByte c.1

/-- `MemRead(a, 1)` (R11, R61). The range check of rule R64 comes before every call. -/
def Memory.read : Memory → Nat → Byte
  | [], a => resetByte a
  | (b, w) :: m, a => if a = b then w else Memory.read m a

/-- One cell put before a list: none where it is what an unlisted address reads as. -/
def Memory.cons (a : Nat) (v : Byte) (m : Memory) : Memory := if v = resetByte a then m else (a, v) :: m

/-- The list with the byte at `a` set to `v`, in canonical form. -/
def Memory.insert : Memory → Nat → Byte → Memory
  | [], a, v => Memory.cons a v []
  | (b, w) :: m, a, v =>
    if a < b then Memory.cons a v ((b, w) :: m)
    else if a = b then Memory.cons a v m
    else (b, w) :: Memory.insert m a v

/-- `MemWrite(a, 1, v)` (R11, R61). The range check of rule R64 comes before every call; there is no byte above 0xFFF
to write (log 8). -/
def Memory.write (m : Memory) (a : Nat) (v : Byte) : Memory :=
  if a < 0x1000 then Memory.insert m a v else m

/-- A sequence of bytes written at ascending addresses from `a` (R66). -/
def Memory.writeBytes (m : Memory) (a : Nat) : List Byte → Memory
  | [] => m
  | b :: bs => Memory.writeBytes (m.write a b) (a + 1) bs

/-- The `n` bytes at ascending addresses from `a` (R66). -/
def Memory.readBytes (m : Memory) (a n : Nat) : List Byte := (List.range n).map fun k => m.read (a + k)

/-- `InRange(a, n)` (R11): all of the `n` addresses from `a` exist; true for `n = 0`. -/
abbrev InRange (a n : Nat) : Prop := n = 0 ∨ a + n - 1 ≤ 0xFFF

end Sys2Proof.Machine
end

