-- ==== Sys2Proof/Machine/State.lean ====
section
/-! DEFINITION. The architectural state (10_state.md, rules R30 to R50), the reset state (R48) and the reasons a host
operation can stop. -/

namespace Sys2Proof.Machine

/-- Why the core is halted (R47, R260). -/
inductive HaltCause where
  /-- The normal halt: `pc` passed 0xFFF (R127, R265). -/
  | endOfMemory
  /-- 2nnn with `SP = 16` (R261). -/
  | stackOverflow
  /-- 00EE with `SP = 0` (R262). -/
  | stackUnderflow
  /-- An access above 0xFFF; `a` is the first out-of-range address (R263, R64). -/
  | addressOutOfRange (a : Word)
  deriving DecidableEq, Repr

/-- The run state `RS` (R47). -/
inductive RunState where
  /-- The next step fetches and executes the instruction at `pc`. -/
  | running
  /-- An Fx0A at `pc` waits for a key; `x` is its destination. -/
  | awaitingKey (x : Reg)
  /-- Terminal until `reset`. -/
  | halted (cause : HaltCause)
  deriving DecidableEq, Repr

/-- The framebuffer `FB[px][py]` (R46): 64 columns of 32 rows; true means on. -/
abbrev Framebuffer := Vector (Vector Bool 32) 64

/-- A fault of the host interface. There is none: the spec takes every fatal error of the core as a halt, which is a
next state with `RS = Halted(cause)` (R130, R266; log 1). Nothing raises one, which is safe. -/
inductive Fault where
  deriving DecidableEq, Repr

/-- Why an operation has no transition. -/
inductive Refusal where
  /-- Raised by an arm of `exec` whose instruction has no meaning in the model; there is no such arm. Safe. -/
  | notModelled (mnemonic : String)
  /-- Raised by the host operation `reset(image)` for an image of `length` bytes over 0xE00: "A model has no reset
  transition for such an image" (R293). Safe: the spec itself refuses it. -/
  | imageTooLong (length : Nat)
  deriving DecidableEq, Repr

/-- Every piece of state of the core (R30, R46, R47, R60), and the parameters (R7, log 2). -/
structure State where
  /-- `V[0..15]`; `V[15]` is `VF`, general register and flag register in one (R31, R32). -/
  v : Vector Byte 16
  /-- The index register `I` (R34). -/
  i : Word
  /-- The program counter (R35). -/
  pc : Word
  /-- The delay timer `DT` (R37). -/
  dt : Byte
  /-- The sound timer `ST` (R38). -/
  st : Byte
  /-- The call stack entries (R39); those at `sp` and above are dead. -/
  stack : Vector Word 16
  /-- `SP`, the number of live entries, 0 to 16 (R40). -/
  sp : Fin 17
  /-- The framebuffer `FB` (R46). -/
  fb : Framebuffer
  /-- The run state `RS` (R47). -/
  rs : RunState
  /-- Memory `M` (R60). -/
  mem : Memory
  /-- The parameters `FLAG_WRITE_ORDER` and `FONT` (R7), which no operation changes (log 2). -/
  params : Params
  deriving DecidableEq, Repr

/-- All pixels off (R221). -/
def clearFb : Framebuffer := Vector.replicate 64 (Vector.replicate 32 false)

/-- The core after `reset` of an empty image with the default parameters (R48, R292): memory holds the font and zeros.
The zero registers are the spec's decision D3 (log 5). -/
def State.reset : State :=
  { v := Vector.replicate 16 0x00
    i := 0x000
    pc := 0x200
    dt := 0x00
    st := 0x00
    stack := Vector.replicate 16 0x0000
    sp := 0
    fb := clearFb
    rs := .running
    mem := []
    params := defaultParams }

end Sys2Proof.Machine
end

