-- ==== Sys2Proof/Machine/Ops.lean ====
section
/-! DEFINITION. The named operations of the blocks: register file (R43), call stack (R41, R42), memory (R61, R64),
framebuffer (R220), fetch (R120); the outcomes of an instruction and their commit (R12, R129, R130), which is also
where a fatal error is taken (R266). -/

namespace Sys2Proof.Machine

/-! ## chip8_register_file (R43) -/

/-- `readV(i)`. -/
def State.readV (s : State) (r : Reg) : Byte := s.v[r]

/-- `writeV(i, v)`. -/
def State.writeV (s : State) (r : Reg) (b : Byte) : State := { s with v := s.v.set r b }

/-- `writeI(v)`. -/
def State.writeI (s : State) (w : Word) : State := { s with i := w }

/-- `writeDT(v)`. -/
def State.writeDt (s : State) (b : Byte) : State := { s with dt := b }

/-- `writeST(v)`. -/
def State.writeSt (s : State) (b : Byte) : State := { s with st := b }

/-- `writePC(v)`, with the value as the unbounded integer the rules compute (R9, R126). Every value a run gives is at
most 0x1002 (R36), so nothing is reduced (log 7). -/
def State.writePc (s : State) (q : Nat) : State := { s with pc := BitVec.ofNat 16 q }

/-- `RS <- r` (R47). -/
def State.setRs (s : State) (r : RunState) : State := { s with rs := r }

/-- The address of the instruction, as an integer. -/
def State.pcNat (s : State) : Nat := s.pc.toNat

/-- Stack entry `k` (R39). -/
def State.stackEntry (s : State) (k : Fin 16) : Word := s.stack[k]

/-- `push(a)` (R41): none stands for the raised `StackOverflow`. -/
def State.push (s : State) (a : Word) : Option State :=
  if h : s.sp.val < 16 then
    some { s with stack := s.stack.set s.sp.val a, sp := ⟨s.sp.val + 1, by omega⟩ }
  else none

/-- `pop()` (R42): the entry returned, which is not cleared, and the state; none stands for the raised
`StackUnderflow`. -/
def State.pop (s : State) : Option (Word × State) :=
  if h : 0 < s.sp.val then
    some (s.stack[s.sp.val - 1], { s with sp := ⟨s.sp.val - 1, by omega⟩ })
  else none

/-! ## chip8_memory (R61, R64) -/

/-- One byte of memory. -/
def State.readMem (s : State) (a : Nat) : Byte := s.mem.read a

/-- A sequence of bytes stored from `a`. -/
def State.storeBytes (s : State) (a : Nat) (bs : List Byte) : State := { s with mem := s.mem.writeBytes a bs }

/-- The range check of rule R64: the cause raised when an address of the access is above 0xFFF, none when all exist. -/
def rangeCheck (a n : Nat) : Option HaltCause :=
  if InRange a n then none else some (.addressOutOfRange (BitVec.ofNat 16 (max a 0x1000)))

/-! ## chip8_display_framebuffer (R220 to R223) -/

/-- `fb_read(px, py)` (R223). -/
def State.fbRead (s : State) (px : Fin 64) (py : Fin 32) : Bool := s.fb[px][py]

/-- `FB[px][py] <- on` (R222), on the framebuffer alone. -/
def fbSet (fb : Framebuffer) (px : Fin 64) (py : Fin 32) (on : Bool) : Framebuffer :=
  fb.set px (fb[px].set py on)

/-- `fb_clear()` (R221). -/
def State.fbClear (s : State) : State := { s with fb := clearFb }

/-- The framebuffer replaced whole, by a sequence of `fb_set` computed elsewhere. -/
def State.setFb (s : State) (fb : Framebuffer) : State := { s with fb := fb }

/-! ## chip8_fetch_unit (R120, R121) -/

/-- `fetch(p)` (R120): both addresses are checked first, then the word is read, high byte first. -/
def fetch (s : State) : Except HaltCause Word :=
  match rangeCheck s.pcNat 2 with
  | some c => .error c
  | none => .ok (wordOfBytes (s.readMem s.pcNat) (s.readMem (s.pcNat + 1)))

/-! ## Outcomes and their commit (R12, R123, R126 to R130) -/

/-- What executing one instruction yields (R12). `next` carries the state with the staged writes made. -/
inductive Result where
  /-- `Next(q)`. -/
  | next (q : Nat) (staged : State)
  /-- `Await(x)`. -/
  | await (x : Reg)
  /-- `raise Fault(cause)`. -/
  | fault (cause : HaltCause)

/-- `pc <- q`, then the end-of-memory check (R127, R129). -/
def State.advance (s : State) (q : Nat) : State :=
  if q > 0xFFF then (s.writePc q).setRs (.halted .endOfMemory) else s.writePc q

/-- TAKING A FATAL ERROR (R130, R266): every write of the instruction is discarded, `pc` keeps its address,
`RS <- Halted(cause)`, and nothing else changes. There is no return from it but `reset` (R268). -/
def State.takeFault (s : State) (cause : HaltCause) : State := s.setRs (.halted cause)

/-- The commit of an outcome on the state before the instruction (R123). -/
def commit (s : State) : Result → Host.Outcome State Fault Refusal
  | .next q staged => .next (staged.advance q)
  | .await x => .next (s.setRs (.awaitingKey x))
  | .fault cause => .next (s.takeFault cause)

/-- `return Next(p + 2)` with the staged writes (R126). -/
def nextInstr (s staged : State) : Result := .next (s.pcNat + 2) staged

/-- `Next(p + 4)` when the condition holds, `Next(p + 2)` when not: a skip (R14, R126). -/
def skipIf (s : State) (condition : Bool) : Result :=
  if condition then .next (s.pcNat + 4) s else nextInstr s s

/-- An instruction whose access of `n` bytes from `a` is checked before its first write (R12, R64). -/
def afterRangeCheck (a n : Nat) (r : Result) : Result :=
  match rangeCheck a n with
  | some cause => .fault cause
  | none => r

end Sys2Proof.Machine
end

