-- ==== Sys2Proof/Machine/Flags.lean ====
section
/-! DEFINITION. chip8_alu (rules R170 to R173): results and flags of every function, and the two writes of a flagged
result in the parameter's order (R174). -/

namespace Sys2Proof.Machine

/-- The ALU functions (R171). -/
inductive AluFn where
  | pass | addnf | or | and | xor | add | sub | shr | subn | shl
  deriving DecidableEq, Repr

/-- `(a + b) mod 256` (R171). -/
def sumMod (a b : Byte) : Byte := BitVec.ofNat 8 ((a.toNat + b.toNat) % 256)

/-- `(a - b) mod 256`: for `a < b` it is `a - b + 256` (R171). -/
def diffMod (a b : Byte) : Byte := BitVec.ofNat 8 ((a.toNat + 256 - b.toNat) % 256)

/-- The carry out of bit 7 (R181). -/
def carryFlag (a b : Byte) : Bool := a.toNat + b.toNat > 255

/-- The strict unsigned comparison: equal operands give 0 (R172). -/
def greaterFlag (minuend subtrahend : Byte) : Bool := minuend.toNat > subtrahend.toNat

/-- The table of rule R171: the result and the flag, none where the function gives no flag. -/
def alu (fn : AluFn) (a b : Byte) : Byte × Option Bool :=
  match fn with
  | .pass => (b, none)
  | .addnf => (sumMod a b, none)
  | .or => (a ||| b, none)
  | .and => (a &&& b, none)
  | .xor => (a ^^^ b, none)
  | .add => (sumMod a b, some (carryFlag a b))
  | .sub => (diffMod a b, some (greaterFlag a b))
  | .shr => (a >>> 1, some (a.getLsbD 0))
  | .subn => (diffMod b a, some (greaterFlag b a))
  | .shl => (BitVec.ofNat 8 (a.toNat * 2 % 256), some (a.getLsbD 7))

/-- A flag as the byte `VF` holds (R32). -/
def flagByte (f : Bool) : Byte := if f then 1 else 0

/-- The two writes of a flagged result, in the order of `FLAG_WRITE_ORDER` (R174). -/
def State.writeFlagged (s : State) (x : Reg) (r : Byte) (f : Bool) : State :=
  match s.params.flagWriteOrder with
  | .flagThenResult => (s.writeV VF (flagByte f)).writeV x r
  | .resultThenFlag => (s.writeV x r).writeV VF (flagByte f)

/-- The executor's writes of an ALU output: `r` to `V[x]` and, when there is a flag, `f` to `VF` (R170). -/
def State.writeAlu (s : State) (x : Reg) : Byte × Option Bool → State
  | (r, none) => s.writeV x r
  | (r, some f) => s.writeFlagged x r f

/-- An ALU instruction with operands `a = V[x]` and `b`, both sampled before any write (R13, R170). -/
def aluInstr (fn : AluFn) (x : Reg) (b : Byte) (s : State) : Result :=
  nextInstr s (s.writeAlu x (alu fn (s.readV x) b))

end Sys2Proof.Machine
end

