-- ==== Sys2Proof/Machine/Operands.lean ====
section
/-! DEFINITION. The operand forms (rule R92): registers direct, `kk` and `nnn` as they stand, memory at `I` plus a
constant offset, and the register block `V[0]..V[x]` of Fx55 and Fx65. -/

namespace Sys2Proof.Machine

/-- The only addressing mode: "`I` plus a constant offset", as an integer that never wraps (R64, R92). -/
def State.indexAddr (s : State) (offset : Nat) : Nat := s.i.toNat + offset

/-- The registers `V[0]..V[x]`, ascending (R203, R204). -/
def regsUpTo (x : Reg) : List Reg := (List.finRange 16).filter fun k => k ≤ x

/-- The values of `V[0]..V[x]` (R203). -/
def State.regBlock (s : State) (x : Reg) : List Byte := (regsUpTo x).map s.readV

/-- The three decimal digits of a byte: hundreds, tens, ones (R202). -/
def bcdDigits (b : Byte) : List Byte :=
  [BitVec.ofNat 8 (b.toNat / 100), BitVec.ofNat 8 (b.toNat / 10 % 10), BitVec.ofNat 8 (b.toNat % 10)]

/-- The address of the built-in sprite for a digit: `Vx * 5`, the full 8-bit value (R201, D20). -/
def glyphAddr (b : Byte) : Word := BitVec.ofNat 16 (b.toNat * 5)

end Sys2Proof.Machine
end

