-- ==== Sys2Proof/Machine/Alu.lean ====
section
/-! DEFINITION. ALU and register arithmetic (42_alu.md): 6xkk, 7xkk, 8xy0 to 8xy7, 8xyE. Each completes with
`Next(p + 2)` and raises nothing. -/

namespace Sys2Proof.Machine

/-- 6xkk `LD Vx, kk` (R175); it uses no ALU function (R171). -/
def execLdVxKk (x : Reg) (kk : Byte) (s : State) : Host.Outcome State Fault Refusal :=
  commit s (nextInstr s (s.writeV x kk))

/-- 7xkk `ADD Vx, kk` (R176): no flag. -/
def execAddVxKk (x : Reg) (kk : Byte) (s : State) : Host.Outcome State Fault Refusal :=
  commit s (aluInstr .addnf x kk s)

/-- 8xy0 `LD Vx, Vy` (R177). -/
def execLdVxVy (x y : Reg) (s : State) : Host.Outcome State Fault Refusal :=
  commit s (aluInstr .pass x (s.readV y) s)

/-- 8xy1 `OR Vx, Vy` (R178): `VF` is unchanged unless it is `Vx` (D14). -/
def execOrVxVy (x y : Reg) (s : State) : Host.Outcome State Fault Refusal :=
  commit s (aluInstr .or x (s.readV y) s)

/-- 8xy2 `AND Vx, Vy` (R179). -/
def execAndVxVy (x y : Reg) (s : State) : Host.Outcome State Fault Refusal :=
  commit s (aluInstr .and x (s.readV y) s)

/-- 8xy3 `XOR Vx, Vy` (R180). -/
def execXorVxVy (x y : Reg) (s : State) : Host.Outcome State Fault Refusal :=
  commit s (aluInstr .xor x (s.readV y) s)

/-- 8xy4 `ADD Vx, Vy` (R181). -/
def execAddVxVy (x y : Reg) (s : State) : Host.Outcome State Fault Refusal :=
  commit s (aluInstr .add x (s.readV y) s)

/-- 8xy5 `SUB Vx, Vy` (R182). -/
def execSubVxVy (x y : Reg) (s : State) : Host.Outcome State Fault Refusal :=
  commit s (aluInstr .sub x (s.readV y) s)

/-- 8xy6 `SHR Vx {, Vy}` (R183): `Vx` is shifted; the field `y` selects nothing (D15). -/
def execShrVx (x y : Reg) (s : State) : Host.Outcome State Fault Refusal :=
  commit s (aluInstr .shr x (s.readV y) s)

/-- 8xy7 `SUBN Vx, Vy` (R184). -/
def execSubnVxVy (x y : Reg) (s : State) : Host.Outcome State Fault Refusal :=
  commit s (aluInstr .subn x (s.readV y) s)

/-- 8xyE `SHL Vx {, Vy}` (R185): `Vx` is shifted; the field `y` selects nothing (D15). -/
def execShlVx (x y : Reg) (s : State) : Host.Outcome State Fault Refusal :=
  commit s (aluInstr .shl x (s.readV y) s)

end Sys2Proof.Machine
end

