-- ==== Sys2Proof/Machine/ControlFlow.lean ====
section
/-! DEFINITION. Control transfer (41_control_flow.md): 00EE, 1nnn, 2nnn, 3xkk, 4xkk, 5xy0, 9xy0. -/

namespace Sys2Proof.Machine

/-- 00EE `RET` (R150): `StackUnderflow` on an empty stack, else `Next(a + 2)` with `a` the popped call address. -/
def execRet (s : State) : Host.Outcome State Fault Refusal :=
  commit s
    (match s.pop with
     | none => .fault .stackUnderflow
     | some (a, t) => .next (a.toNat + 2) t)

/-- 1nnn `JP nnn` (R151). -/
def execJp (nnn : BitVec 12) (s : State) : Host.Outcome State Fault Refusal :=
  commit s (.next (zext16 nnn).toNat s)

/-- 2nnn `CALL nnn` (R152): `StackOverflow` on a full stack, else the call's own address is pushed. -/
def execCall (nnn : BitVec 12) (s : State) : Host.Outcome State Fault Refusal :=
  commit s
    (match s.push s.pc with
     | none => .fault .stackOverflow
     | some t => .next (zext16 nnn).toNat t)

/-- 3xkk `SE Vx, kk` (R153). -/
def execSeVxKk (x : Reg) (kk : Byte) (s : State) : Host.Outcome State Fault Refusal :=
  commit s (skipIf s (s.readV x == kk))

/-- 4xkk `SNE Vx, kk` (R154). -/
def execSneVxKk (x : Reg) (kk : Byte) (s : State) : Host.Outcome State Fault Refusal :=
  commit s (skipIf s (s.readV x != kk))

/-- 5xy0 `SE Vx, Vy` (R155). -/
def execSeVxVy (x y : Reg) (s : State) : Host.Outcome State Fault Refusal :=
  commit s (skipIf s (s.readV x == s.readV y))

/-- 9xy0 `SNE Vx, Vy` (R156). -/
def execSneVxVy (x y : Reg) (s : State) : Host.Outcome State Fault Refusal :=
  commit s (skipIf s (s.readV x != s.readV y))

end Sys2Proof.Machine
end

