-- ==== Sys2Proof/Machine/Display.lean ====
section
/-! DEFINITION. Drawing (44_display.md): 00E0 and Dxyn, and the notifications to the display sink (R230). -/

namespace Sys2Proof.Machine

/-- What the core tells the host. Outputs, not state: no rule reads them back (R49, R133, R230). -/
inductive Notification where
  /-- `clear()`, once per 00E0 (R230). -/
  | clear
  /-- `setPixel(px, py, on)`, once per toggled pixel, with its new value (R230). -/
  | setPixel (px : Fin 64) (py : Fin 32) (on : Bool)
  /-- `UnknownOpcode(p, w)`, once per UNKNOWN word executed (R133). -/
  | unknownOpcode (p w : Word)
  deriving DecidableEq, Repr

/-- What the loops of rule R225 carry: the framebuffer, the collision bit and the notifications so far, oldest first. -/
structure Canvas where
  fb : Framebuffer
  collision : Bool
  notes : List Notification

/-- One toggled pixel (R225); an off-screen pixel is dropped: not drawn, not read, no collision (R227). -/
def Canvas.toggle (c : Canvas) (px py : Nat) : Canvas :=
  if h : px < 64 ∧ py < 32 then
    let old := c.fb[px][py]
    { fb := fbSet c.fb ⟨px, h.1⟩ ⟨py, h.2⟩ (!old)
      collision := c.collision || old
      notes := c.notes ++ [.setPixel ⟨px, h.1⟩ ⟨py, h.2⟩ (!old)] }
  else c

/-- One row byte at row `py`, columns `vx + c` for the offsets `c` listed: bit 7 is the leftmost pixel (R226). -/
def Canvas.drawRow (b : Byte) (vx py : Nat) : List Nat → Canvas → Canvas
  | [], c => c
  | k :: ks, c => Canvas.drawRow b vx py ks (if b.getLsbD (7 - k) then c.toggle (vx + k) py else c)

/-- The rows of a sprite, top to bottom, the first at row `py` (R225). -/
def Canvas.drawRows (vx : Nat) : Nat → List Byte → Canvas → Canvas
  | _, [], c => c
  | py, b :: bs, c => Canvas.drawRows vx (py + 1) bs (Canvas.drawRow b vx py (List.range 8) c)

/-- The loops of Dxyn on a state (R225). Coordinates are the sampled register values, not wrapped (R227). -/
def drawSprite (x y : Reg) (n : BitVec 4) (s : State) : Canvas :=
  Canvas.drawRows (s.readV x).toNat (s.readV y).toNat (s.mem.readBytes (s.indexAddr 0) n.toNat)
    { fb := s.fb, collision := false, notes := [] }

/-- 00E0 `CLS` (R224). -/
def execCls (s : State) : Host.Outcome State Fault Refusal :=
  commit s (nextInstr s s.fbClear)

/-- Dxyn `DRW Vx, Vy, n` (R225): `VF` is written last, with the collision bit (R228). -/
def execDrw (x y : Reg) (n : BitVec 4) (s : State) : Host.Outcome State Fault Refusal :=
  commit s
    (afterRangeCheck (s.indexAddr 0) n.toNat
      (nextInstr s
        ((s.setFb (drawSprite x y n s).fb).writeV VF (flagByte (drawSprite x y n s).collision))))

/-- The notifications of Dxyn: none when the range check fails (R225, R230). -/
def drawNotifications (x y : Reg) (n : BitVec 4) (s : State) : List Notification :=
  match rangeCheck (s.indexAddr 0) n.toNat with
  | some _ => []
  | none => (drawSprite x y n s).notes

end Sys2Proof.Machine
end

