-- ==== Sys2Proof/Machine/IndexMemory.lean ====
section
/-! DEFINITION. Index register and memory transfers (43_index_memory.md): Annn, Fx29, Fx33, Fx55, Fx65. -/

namespace Sys2Proof.Machine

/-- Annn `LD I, nnn` (R200). -/
def execLdINnn (nnn : BitVec 12) (s : State) : Host.Outcome State Fault Refusal :=
  commit s (nextInstr s (s.writeI (zext16 nnn)))

/-- Fx29 `LD F, Vx` (R201). -/
def execLdFVx (x : Reg) (s : State) : Host.Outcome State Fault Refusal :=
  commit s (nextInstr s (s.writeI (glyphAddr (s.readV x))))

/-- Fx33 `LD B, Vx` (R202). -/
def execLdBVx (x : Reg) (s : State) : Host.Outcome State Fault Refusal :=
  commit s
    (afterRangeCheck (s.indexAddr 0) 3
      (nextInstr s (s.storeBytes (s.indexAddr 0) (bcdDigits (s.readV x)))))

/-- Fx55 `LD [I], Vx` (R203): `I` is unchanged (D19). -/
def execLdMemVx (x : Reg) (s : State) : Host.Outcome State Fault Refusal :=
  commit s
    (afterRangeCheck (s.indexAddr 0) (x.val + 1)
      (nextInstr s (s.storeBytes (s.indexAddr 0) (s.regBlock x))))

/-- `V[k] <- MemRead(I + k, 1)` for each register of the list, in order (R204). -/
def State.loadRegs (s : State) : List Reg → State
  | [] => s
  | k :: ks => State.loadRegs (s.writeV k (s.readMem (s.indexAddr k.val))) ks

/-- Fx65 `LD Vx, [I]` (R204): `I` is unchanged (D19). -/
def execLdVxMem (x : Reg) (s : State) : Host.Outcome State Fault Refusal :=
  commit s
    (afterRangeCheck (s.indexAddr 0) (x.val + 1)
      (nextInstr s (s.loadRegs (regsUpTo x))))

end Sys2Proof.Machine
end

