-- ==== Sys2Proof/Machine/TimersInput.lean ====
section
/-! DEFINITION. Timers and key input (45_timers_input.md): Fx07, Fx0A, Fx15, Fx18 and the host operations `key` and
`tick`. -/

namespace Sys2Proof.Machine

/-- Fx07 `LD Vx, DT` (R240). -/
def execLdVxDt (x : Reg) (s : State) : Host.Outcome State Fault Refusal :=
  commit s (nextInstr s (s.writeV x s.dt))

/-- Fx0A `LD Vx, K` (R241): the core waits; `pc` stays and nothing else changes. `keyOp` completes it. -/
def execLdVxK (x : Reg) (s : State) : Host.Outcome State Fault Refusal :=
  commit s (.await x)

/-- Fx15 `LD DT, Vx` (R242). -/
def execLdDtVx (x : Reg) (s : State) : Host.Outcome State Fault Refusal :=
  commit s (nextInstr s (s.writeDt (s.readV x)))

/-- Fx18 `LD ST, Vx` (R243). -/
def execLdStVx (x : Reg) (s : State) : Host.Outcome State Fault Refusal :=
  commit s (nextInstr s (s.writeSt (s.readV x)))

/-- `key(k)` (R244): it ends an Fx0A wait, and is lost in every other run state. -/
def keyOp (k : BitVec 4) (s : State) : State :=
  match s.rs with
  | .running => s
  | .awaitingKey x => ((s.writeV x (k.setWidth 8)).setRs .running).advance (s.pcNat + 2)
  | .halted _ => s

/-- A timer after a tick: "clamp at 0, never wrap" (R245). -/
def tickTimer (b : Byte) : Byte := if b.toNat > 0 then BitVec.ofNat 8 (b.toNat - 1) else b

/-- `tick()` (R245): both timers, except when halted (D22). -/
def tickOp (s : State) : State :=
  match s.rs with
  | .running => (s.writeDt (tickTimer s.dt)).writeSt (tickTimer s.st)
  | .awaitingKey _ => (s.writeDt (tickTimer s.dt)).writeSt (tickTimer s.st)
  | .halted _ => s

end Sys2Proof.Machine
end

