-- ==== Sys2Proof/Machine/Unknown.lean ====
section
/-! DEFINITION. UNKNOWN words (rule R132): every word that is no row of the opcode table. -/

namespace Sys2Proof.Machine

/-- Executing an UNKNOWN word: `Next(p + 2)`, and nothing else changes (R132, D12). -/
def execUnknown (s : State) : Host.Outcome State Fault Refusal := commit s (nextInstr s s)

end Sys2Proof.Machine
end

