-- ==== Sys2Proof/Machine/Step.lean ====
section
/-! DEFINITION. chip8_run_loop_ctrl: the host operation `step` (rules R123 to R125). -/

namespace Sys2Proof.Machine

/-- `step()` (R123): in `Running`, fetch, decode, execute and commit; in `AwaitingKey` and `Halted`, no effect
(R124, R125). A fault of the fetch is taken like one of the instruction. -/
def step (s : State) : Host.Outcome State Fault Refusal :=
  match s.rs with
  | .running =>
    match fetch s with
    | .error cause => commit s (.fault cause)
    | .ok w =>
      match decodeWord w with
      | some i => exec i s
      | none => execUnknown s
  | .awaitingKey _ => .next s
  | .halted _ => .next s

/-- `s` with the instruction whose bits are `w` stored at `pc` and the run state `Running`, so that the next step
fetches and runs it (log 6). -/
def State.withFetchWord (s : State) (nbits w : Nat) : State :=
  (s.storeBytes s.pcNat (tableBytes nbits w)).setRs .running

end Sys2Proof.Machine
end

