-- ==== Sys2Proof/Machine/HostOps.lean ====
section
/-! DEFINITION. The host interface of the core as a whole (rule R274): the operations a host performs, one at a time. -/

namespace Sys2Proof.Machine

/-- The state `reset(image)` gives (R290): everything as in rule R48, the font and then the image in memory. -/
def loadImage (p : Params) (image : List Byte) : State :=
  { State.reset with
    mem := (Memory.writeBytes [] 0 p.font.toList).writeBytes Config.progBase image
    params := p }

/-- The operations of rule R274. -/
inductive HostOp where
  /-- `reset(image)` (R290). -/
  | reset (image : List Byte)
  /-- `step()` (R123). -/
  | step
  /-- `tick()` (R245). -/
  | tick
  /-- `key(k)` (R244). -/
  | key (k : BitVec 4)
  /-- `read()`: the host reads any part of the state, without changing it (R73). -/
  | read
  deriving DecidableEq, Repr

/-- `reset(image)`: an image over 0xE00 bytes is refused and the state stays (R293). -/
def resetOp (image : List Byte) (s : State) : Host.Outcome State Fault Refusal :=
  if Image.wf image then .next (loadImage s.params image) else .refused (.imageTooLong image.length)

/-- One host operation (R274). -/
def hostOp (op : HostOp) (s : State) : Host.Outcome State Fault Refusal :=
  match op with
  | .reset image => resetOp image s
  | .step => step s
  | .tick => .next (tickOp s)
  | .key k => .next (keyOp k s)
  | .read => .next s

/-- A sequence of host operations, in any order and number (R246); a refused `reset` leaves the state (R293). -/
def hostRun : List HostOp → State → State
  | [], s => s
  | op :: ops, s =>
    match hostOp op s with
    | .next t => hostRun ops t
    | .fault _ => hostRun ops s
    | .refused _ => hostRun ops s

end Sys2Proof.Machine
end

