-- ==== Sys2Proof/Machine/Notify.lean ====
section
/-! DEFINITION. The notifications of a step (rules R133, R230), computed from the state before it. They are outputs and
not state (R49); the step does not depend on them (log 9). -/

namespace Sys2Proof.Machine

/-- The notifications of one instruction (R230): only 00E0 and Dxyn give any. -/
def instrNotifications (i : Instr) (s : State) : List Notification :=
  match i with
  | .cls => [.clear]
  | .drw x y n => drawNotifications x y n s
  | .ret | .jp _ | .call _ | .seVxKk _ _ | .sneVxKk _ _ | .seVxVy _ _ | .ldVxKk _ _ | .addVxKk _ _ | .ldVxVy _ _
  | .orVxVy _ _ | .andVxVy _ _ | .xorVxVy _ _ | .addVxVy _ _ | .subVxVy _ _ | .shrVx _ _ | .subnVxVy _ _
  | .shlVx _ _ | .sneVxVy _ _ | .ldINnn _ | .ldVxDt _ | .ldVxK _ | .ldDtVx _ | .ldStVx _ | .ldFVx _ | .ldBVx _
  | .ldMemVx _ | .ldVxMem _ => []

/-- The notifications of `step()`: those of the instruction, or `UnknownOpcode(p, w)` for an UNKNOWN word (R133). -/
def stepNotifications (s : State) : List Notification :=
  match s.rs with
  | .running =>
    match fetch s with
    | .error _ => []
    | .ok w =>
      match decodeWord w with
      | some i => instrNotifications i s
      | none => [.unknownOpcode s.pc w]
  | .awaitingKey _ => []
  | .halted _ => []

/-- What a display sink holds after a notification, from what it held before (R230). -/
def Notification.render (fb : Framebuffer) : Notification → Framebuffer
  | .clear => clearFb
  | .setPixel px py on => fbSet fb px py on
  | .unknownOpcode _ _ => fb

end Sys2Proof.Machine
end

