-- ==== Sys2Proof/Safety.lean ====
section
/-! DEFINITION. What counts as a safe state and a safe run, and the terms the statements are written in: frames,
completion, the invariant, reachability. -/

namespace Sys2Proof.Machine

/-! ## Frames -/

/-- The pieces of state that an instruction may change, other than `pc` and `RS` (R30, R46, R60). -/
inductive Part where
  | v | i | dt | st | stack | mem | fb
  deriving DecidableEq, Repr

/-- The `pc` that a 00EE which pops stack entry `k` yields (R150). The statements speak of a stack entry through this
alone: "A model must not prove anything about a stack entry except through the `pc` 00EE yields"
(93_implementation_defined.md U4, log 14). -/
def State.resumeAt (s : State) (k : Fin 16) : Nat := (s.stackEntry k).toNat + 2

/-- One piece of state reads the same after as before: every register, `SP` and the `pc` every stack entry resumes at,
every byte of memory, every pixel. -/
def Unchanged (p : Part) (s t : State) : Prop :=
  match p with
  | .v => ∀ r, t.readV r = s.readV r
  | .i => t.i = s.i
  | .dt => t.dt = s.dt
  | .st => t.st = s.st
  | .stack => t.sp = s.sp ∧ ∀ k, t.resumeAt k = s.resumeAt k
  | .mem => ∀ a, t.readMem a = s.readMem a
  | .fb => ∀ px py, t.fbRead px py = s.fbRead px py

/-- Everything but the listed pieces (and `pc`, `RS`) is unchanged, the parameters included. -/
def Frame (changed : List Part) (s t : State) : Prop :=
  (∀ p, p ∉ changed → Unchanged p s t) ∧ t.params = s.params

/-- `Next(q)` as it is committed from `s` (R127, R129): `pc` becomes `q`, and the core halts when `q` passes 0xFFF. -/
def Completes (s t : State) (q : Nat) : Prop :=
  t.pc = BitVec.ofNat 16 q ∧ t.rs = if q > 0xFFF then .halted .endOfMemory else s.rs

/-- The words that match a row of rule R97 are those that decode to its instruction, with the operands of R91. -/
def EncodedBy (mask pattern : Word) (instr : Word → Instr) : Prop :=
  ∀ w, w &&& mask = pattern ↔ decodeWord w = some (instr w)

/-- A flagged result `r`, `f` of an instruction on `V[x]`, in both write orders (R174); every other register is kept. -/
def FlaggedResult (s t : State) (x : Reg) (r : Nat) (f : Prop) : Prop :=
  (x ≠ VF → (t.readV x).toNat = r ∧ (f → t.readV VF = 1) ∧ (¬f → t.readV VF = 0)) ∧
  (x = VF → s.params.flagWriteOrder = .flagThenResult → (t.readV VF).toNat = r) ∧
  (x = VF → s.params.flagWriteOrder = .resultThenFlag → (f → t.readV VF = 1) ∧ (¬f → t.readV VF = 0)) ∧
  ∀ q, q ≠ x → q ≠ VF → t.readV q = s.readV q

/-- The state after a fatal error: the state before it with `RS` changed, and nothing else (R130, R267). -/
def haltedWith (s : State) (cause : HaltCause) : State := { s with rs := .halted cause }

/-- The cause of a range check that failed for an access from `a`: the first address above 0xFFF (R64). -/
def firstBad (a : Nat) : HaltCause := .addressOutOfRange (BitVec.ofNat 16 (max a 0x1000))

/-! ## Sprites -/

/-- Whether a Dxyn on `s` has a sprite bit 1 at column `px`, row `py`: row byte `py - vy` of the sprite, bit 7 at column
`vx` (R225, R226). -/
def spriteBit (s : State) (x y : Reg) (n : BitVec 4) (px py : Nat) : Bool :=
  decide ((s.readV x).toNat ≤ px ∧ px < (s.readV x).toNat + 8 ∧ (s.readV y).toNat ≤ py ∧
    py < (s.readV y).toNat + n.toNat) &&
  (s.readMem (s.i.toNat + (py - (s.readV y).toNat))).getLsbD (7 - (px - (s.readV x).toNat))

/-! ## The tables of rules R33 and R126 -/

/-- Column "reads" of rule R33. -/
def readsReg (i : Instr) (r : Reg) : Bool :=
  match i with
  | .seVxKk x _ | .sneVxKk x _ | .addVxKk x _ | .shrVx x _ | .shlVx x _ => r == x
  | .seVxVy x y | .sneVxVy x y | .orVxVy x y | .andVxVy x y | .xorVxVy x y | .addVxVy x y | .subVxVy x y
  | .subnVxVy x y | .drw x y _ => r == x || r == y
  | .ldVxVy _ y => r == y
  | .ldDtVx x | .ldStVx x | .ldFVx x | .ldBVx x => r == x
  | .ldMemVx x => r ≤ x
  | .ldVxKk _ _ | .ldVxDt _ | .ldVxK _ | .ldVxMem _ | .cls | .ret | .jp _ | .call _ | .ldINnn _ => false

/-- Column "writes" of rule R33. -/
def writesReg (i : Instr) (r : Reg) : Bool :=
  match i with
  | .ldVxKk x _ | .addVxKk x _ | .ldVxVy x _ | .orVxVy x _ | .andVxVy x _ | .xorVxVy x _ | .ldVxDt x | .ldVxK x =>
    r == x
  | .addVxVy x _ | .subVxVy x _ | .subnVxVy x _ | .shrVx x _ | .shlVx x _ => r == x || r == VF
  | .drw _ _ _ => r == VF
  | .ldVxMem x => r ≤ x
  | .seVxKk _ _ | .sneVxKk _ _ | .seVxVy _ _ | .sneVxVy _ _ | .ldDtVx _ | .ldStVx _ | .ldFVx _ | .ldBVx _
  | .ldMemVx _ | .cls | .ret | .jp _ | .call _ | .ldINnn _ => false

/-! ## The invariant -/

/-- What rules R36 and R134 say of `pc` in each run state, and what a halt cause records (R260). -/
def RunState.legal (rs : RunState) (pc sp : Nat) : Prop :=
  match rs with
  | .running => pc ≤ 0xFFF
  | .awaitingKey _ => pc ≤ 0xFFF
  | .halted .endOfMemory => 0xFFF < pc ∧ pc ≤ 0x1002
  | .halted .stackOverflow => pc ≤ 0xFFF ∧ sp = 16
  | .halted .stackUnderflow => pc ≤ 0xFFF ∧ sp = 0
  | .halted (.addressOutOfRange a) => pc ≤ 0xFFF ∧ a = 0x1000

/-- The invariant of the core. -/
structure Inv (s : State) : Prop where
  /-- Memory keeps its canonical form, so it holds no address above 0xFFF (R60). -/
  mem_wf : s.mem.wf
  /-- `I` holds only 0x000 to 0xFFF (R34). -/
  index_legal : s.i.toNat ≤ 0xFFF
  /-- `pc` and the run state (R36, R134), and the recorded address, "always 0x1000" (R64, R260). -/
  run_legal : s.rs.legal s.pc.toNat s.sp.val
  /-- Each live stack entry resumes 2 past a 2nnn that was fetched (R39, R120). -/
  stack_legal : ∀ k : Fin 16, k.val < s.sp.val → s.resumeAt k ≤ 0x1000

/-! ## Runs -/

/-- The states a host can bring the core to: `reset` of an image, then any host operations (R274, R295), for any
value of the parameters (R7). -/
inductive Reachable : State → Prop where
  | load (p : Params) (image : List Byte) (h : Image.wf image) : Reachable (loadImage p image)
  | op (op : HostOp) {s t : State} (h : Reachable s) (ht : hostOp op s = .next t) : Reachable t

/-- A fatal error, as against the normal halt `EndOfMemory` (R135, R260). -/
def HaltCause.fatal : HaltCause → Prop
  | .endOfMemory => False
  | .stackOverflow => True
  | .stackUnderflow => True
  | .addressOutOfRange _ => True

/-- A run state that is not a fatal halt: what a safe run keeps (R135). -/
def RunState.safe : RunState → Prop
  | .running => True
  | .awaitingKey _ => True
  | .halted c => ¬c.fatal

/-- The next step executes a 00EE. -/
def ExecutesRet (s : State) : Prop := s.rs = .running ∧ fetch s = .ok 0x00EE

/-- Host operations other than `reset`, none of them a step that executes a 00EE with `SP = d` (R159). -/
inductive NoReturnAt (d : Nat) : State → State → Prop where
  | refl (s : State) : NoReturnAt d s s
  | step {s t u : State} (op : HostOp) (h : NoReturnAt d s t) (notReset : ∀ image, op ≠ .reset image)
      (notReturn : ¬(op = .step ∧ ExecutesRet t ∧ t.sp.val = d)) (ht : hostOp op t = .next u) : NoReturnAt d s u

end Sys2Proof.Machine
end

