-- ==== Sys2Proof/Certificates/Slice0/Obligations.lean ====
section
/-! DEFINITION. The statements for the provers. Each docstring names the rules it formalises; where a rule carries one of
the spec's own decisions D<n> (92_eei_decisions.md) or is marked `[derived: …]`, the docstring says so. -/

open Sys2Proof Sys2Proof.Machine

/-! ## Encoding -/

/-- R91: every word has all the field views, which are views of the same bits. -/
def Obligations.FieldViewsAreTheBitRanges : Prop :=
  ∀ w : Word,
    (familyOf w).toNat = w.toNat / 0x1000 ∧ (xOf w).val = w.toNat / 0x100 % 0x10 ∧
    (yOf w).val = w.toNat / 0x10 % 0x10 ∧ (nOf w).toNat = w.toNat % 0x10 ∧
    (kkOf w).toNat = w.toNat % 0x100 ∧ (nnnOf w).toNat = w.toNat % 0x1000 ∧
    decodeFields w = ⟨selectOp w, familyOf w, xOf w, yOf w, nOf w, kkOf w, nnnOf w⟩

/-- R97: the decoder selects the operation of a row exactly when the word matches the row; no two rows match one word; a
word that matches no row is UNKNOWN; and an instruction is read exactly where a row matches, with that row's operation. -/
def Obligations.OpcodeRowsSelectTheirOperation : Prop :=
  ∀ w : Word,
    (∀ row ∈ opcodeRows, selectOp w = row.op ↔ w &&& row.mask = row.pattern) ∧
    opcodeRows.Pairwise (fun r q => ¬(w &&& r.mask = r.pattern ∧ w &&& q.mask = q.pattern)) ∧
    (selectOp w = .unknown ↔ ∀ row ∈ opcodeRows, w &&& row.mask ≠ row.pattern) ∧
    (decodeWord w = none ↔ selectOp w = .unknown) ∧
    ∀ i, decodeWord w = some i → i.op = selectOp w

/-- 30_encoding.md sections 2 and 3 (the UNKNOWN words, decision D11): a word is UNKNOWN exactly in these places of the
opcode map. -/
def Obligations.UnknownWordsAreThoseOutsideTheMap : Prop :=
  ∀ w : Word,
    decodeWord w = none ↔
      (w.toNat < 0x1000 ∧ w.toNat ≠ 0x0E0 ∧ w.toNat ≠ 0x0EE) ∨
      ((w.toNat / 0x1000 = 0x5 ∨ w.toNat / 0x1000 = 0x9) ∧ w.toNat % 0x10 ≠ 0) ∨
      (w.toNat / 0x1000 = 0x8 ∧ 7 < w.toNat % 0x10 ∧ w.toNat % 0x10 ≠ 0xE) ∨
      w.toNat / 0x1000 = 0xB ∨ w.toNat / 0x1000 = 0xC ∨ w.toNat / 0x1000 = 0xE ∨
      (w.toNat / 0x1000 = 0xF ∧ w.toNat % 0x100 ∉ [0x07, 0x0A, 0x15, 0x18, 0x29, 0x33, 0x55, 0x65])

/-- Decode and encode agree: every instruction, with every operand, is read back from its word, whatever follows it in
the byte list (R90, R97). -/
def Obligations.DecodeOfEncodeIsTheInstruction : Prop :=
  ∀ (i : Instr) (rest : List Byte),
    decodeWord (encode i) = some i ∧ decode (bytesOfWord (encode i) ++ rest) = .ok (i, rest)

/-- Every bit of a decoded word is in its instruction: the word is read back from it (R91, R97). -/
def Obligations.EncodeOfDecodeIsTheWord : Prop :=
  (∀ (w : Word) (i : Instr), decodeWord w = some i → encode i = w) ∧
  ∀ (bytes rest : List Byte) (i : Instr), decode bytes = .ok (i, rest) → bytes = bytesOfWord (encode i) ++ rest

/-- Words written out from the patterns of R97, one or more for each family, and UNKNOWN words (95_test_vectors.md V2). -/
def Obligations.SampleWordsDecode : Prop :=
  decodeWord 0x00E0 = some .cls ∧ decodeWord 0x00EE = some .ret ∧ decodeWord 0x1234 = some (.jp 0x234) ∧
  decodeWord 0x2206 = some (.call 0x206) ∧ decodeWord 0x333F = some (.seVxKk 3 0x3F) ∧
  decodeWord 0x8AB6 = some (.shrVx 0xA 0xB) ∧ decodeWord 0x9120 = some (.sneVxVy 1 2) ∧
  decodeWord 0xA300 = some (.ldINnn 0x300) ∧ decodeWord 0xD12F = some (.drw 1 2 0xF) ∧
  decodeWord 0xF30A = some (.ldVxK 3) ∧ decodeWord 0xF265 = some (.ldVxMem 2) ∧
  decodeWord 0x00E1 = none ∧ decodeWord 0x0000 = none ∧ decodeWord 0x8AB8 = none ∧ decodeWord 0x5121 = none ∧
  decodeWord 0xB123 = none ∧ decodeWord 0xC0FF = none ∧ decodeWord 0xE09E = none ∧ decodeWord 0xF01E = none

/-! ## The step -/

/-- R120, R123: when the bytes at `pc`, high byte first, decode to an instruction, a step in `Running` is its execution. -/
def Obligations.StepRunsTheDecodedInstruction : Prop :=
  ∀ (s : State) (i : Instr), s.rs = .running → s.pc.toNat ≤ 0xFFE →
    decode [s.readMem s.pc.toNat, s.readMem (s.pc.toNat + 1)] = .ok (i, []) → step s = exec i s

/-- R132, R133 (decision D12): an UNKNOWN word changes nothing but `pc`, by 2, and is notified with its address and word. -/
def Obligations.StepAtUnknownWordOnlyAdvances : Prop :=
  ∀ s : State, s.rs = .running → s.pc.toNat ≤ 0xFFE →
    decodeWord (wordOfBytes (s.readMem s.pc.toNat) (s.readMem (s.pc.toNat + 1))) = none →
    (∃ t, step s = .next t ∧ Frame [] s t ∧ Completes s t (s.pc.toNat + 2)) ∧
    stepNotifications s =
      [.unknownOpcode s.pc (wordOfBytes (s.readMem s.pc.toNat) (s.readMem (s.pc.toNat + 1)))]

/-- R120 (decision D10): a fetch whose second byte is above 0xFFF halts the core with the first address above 0xFFF,
which is 0x1000 for `pc = 0xFFF`; nothing else changes and nothing is notified. -/
def Obligations.FetchPastTheTopHalts : Prop :=
  ∀ s : State, s.rs = .running → 0xFFE < s.pc.toNat →
    step s = .next (haltedWith s (firstBad s.pc.toNat)) ∧ stepNotifications s = [] ∧
    (s.pc = 0xFFF → firstBad s.pc.toNat = .addressOutOfRange 0x1000)

/-- R124, R125, R244 (decisions D21, D22, D30, D31): `step` in `AwaitingKey`, and `step`, `key` and `tick` in `Halted`,
change nothing; a `key` in `Running` is lost. -/
def Obligations.WaitingAndHaltedCoresDoNotStep : Prop :=
  (∀ (s : State) (x : Reg), s.rs = .awaitingKey x → step s = .next s) ∧
  (∀ (s : State) (c : HaltCause) (k : BitVec 4), s.rs = .halted c →
    step s = .next s ∧ hostOp (.key k) s = .next s ∧ hostOp .tick s = .next s) ∧
  ∀ (s : State) (k : BitVec 4), s.rs = .running → hostOp (.key k) s = .next s

/-- R130, R266 (decision D7): a fatal error is taken as a next state; so a step always answers one, whatever the state,
and so does every host operation but the `reset` of an image that is too long (R293, decision D25), which is refused. -/
def Obligations.EveryOperationAnswersANextState : Prop :=
  (∀ s : State, ∃ t, step s = .next t) ∧ (∀ (i : Instr) (s : State), ∃ t, exec i s = .next t) ∧
  ∀ (op : HostOp) (s : State), (∀ image, op = .reset image → image.length ≤ 0xE00) → ∃ t, hostOp op s = .next t

/-- R130, R267 (decisions D7, D8), faults are precise: a step that ends in a fatal halt has changed `RS` and nothing
else. -/
def Obligations.FatalHaltsArePrecise : Prop :=
  ∀ (s t : State) (c : HaltCause), s.rs = .running → step s = .next t → t.rs = .halted c → c.fatal →
    t = haltedWith s c

/-- R260 to R263, R269 (decisions D6, D8, D10): in states the core can be in, each fatal cause comes from the places the
spec names, and from no other. -/
def Obligations.FatalCausesComeFromTheirInstructions : Prop :=
  ∀ s t : State, Inv s → s.rs = .running → step s = .next t →
    (t.rs = .halted .stackOverflow ↔
      s.sp.val = 16 ∧ ∃ w nnn, fetch s = .ok w ∧ decodeWord w = some (.call nnn)) ∧
    (t.rs = .halted .stackUnderflow ↔ s.sp.val = 0 ∧ fetch s = .ok 0x00EE) ∧
    ((∃ a, t.rs = .halted (.addressOutOfRange a)) ↔
      s.pc = 0xFFF ∨
      ∃ w i, fetch s = .ok w ∧ decodeWord w = some i ∧
        ((∃ x, i = .ldBVx x ∧ 0xFFF < s.i.toNat + 2) ∨
         (∃ x, (i = .ldMemVx x ∨ i = .ldVxMem x) ∧ 0xFFF < s.i.toNat + x.val) ∨
         ∃ x y n, i = .drw x y n ∧ 0x1000 < s.i.toNat + n.toNat)) ∧
    ∀ a, t.rs = .halted (.addressOutOfRange a) → a = 0x1000

/-- R122 (40_run_loop.md section 2; a refused `reset` is decision D25): the run state moves as the table says, for every host operation, in states the core can be in. -/
def Obligations.RunStateMovesAsTheTableSays : Prop :=
  ∀ (op : HostOp) (s t : State), Inv s → hostOp op s = .next t →
    match op with
    | .reset _ => t.rs = .running
    | .read => t = s
    | .tick => t.rs = s.rs ∧ ((∃ c, s.rs = .halted c) → t = s)
    | .key _ =>
      (∀ x, s.rs = .awaitingKey x →
        t.rs = if s.pc.toNat + 2 ≤ 0xFFF then .running else .halted .endOfMemory) ∧
      ((∀ x, s.rs ≠ .awaitingKey x) → t = s)
    | .step =>
      (s.rs ≠ .running → t = s) ∧
      (s.rs = .running →
        (t.rs = .running ∧ t.pc.toNat ≤ 0xFFF) ∨ (t.rs = .halted .endOfMemory ∧ 0xFFF < t.pc.toNat) ∨
        (∃ x w, t.rs = .awaitingKey x ∧ t.pc = s.pc ∧ fetch s = .ok w ∧ decodeWord w = some (.ldVxK x)) ∨
        ∃ c, t.rs = .halted c ∧ c.fatal ∧ t.pc = s.pc) ∧
      ∀ w x, s.rs = .running → fetch s = .ok w → decodeWord w = some (.ldVxK x) → t.rs = .awaitingKey x

/-- R126: the `pc` each instruction leaves, as the unbounded value the table gives; in states the core can be in. An
instruction that faults has no `Next` value; Fx0A leaves `pc` where it is until the key; an UNKNOWN word gives `p + 2`. -/
def Obligations.NextPcFollowsTheTable : Prop :=
  (∀ (i : Instr) (s t : State), Inv s → s.rs = .running → exec i s = .next t → t.rs.safe →
    t.pc.toNat =
      match i with
      | .jp nnn => nnn.toNat
      | .call nnn => nnn.toNat
      | .ret => s.resumeAt (Fin.ofNat 16 (s.sp.val - 1))
      | .seVxKk x kk => s.pc.toNat + if s.readV x = kk then 4 else 2
      | .sneVxKk x kk => s.pc.toNat + if s.readV x ≠ kk then 4 else 2
      | .seVxVy x y => s.pc.toNat + if s.readV x = s.readV y then 4 else 2
      | .sneVxVy x y => s.pc.toNat + if s.readV x ≠ s.readV y then 4 else 2
      | .ldVxK _ => s.pc.toNat
      | .cls | .ldVxKk _ _ | .addVxKk _ _ | .ldVxVy _ _ | .orVxVy _ _ | .andVxVy _ _ | .xorVxVy _ _
      | .addVxVy _ _ | .subVxVy _ _ | .shrVx _ _ | .subnVxVy _ _ | .shlVx _ _ | .ldINnn _ | .drw _ _ _
      | .ldVxDt _ | .ldDtVx _ | .ldStVx _ | .ldFVx _ | .ldBVx _ | .ldMemVx _ | .ldVxMem _ => s.pc.toNat + 2) ∧
  (∀ (s t : State) (w : Word), Inv s → s.rs = .running → fetch s = .ok w → decodeWord w = none → step s = .next t →
    t.pc.toNat = s.pc.toNat + 2) ∧
  ∀ (s t : State) (x : Reg) (k : BitVec 4), Inv s → s.rs = .awaitingKey x → hostOp (.key k) s = .next t →
    t.pc.toNat = s.pc.toNat + 2

/-! ## Control transfer -/

/-- R151 (decision D9: any target is taken): 1nnn. -/
def Obligations.JpSetsPcToItsTarget : Prop :=
  EncodedBy 0xF000 0x1000 (fun w => .jp (nnnOf w)) ∧
  ∀ (nnn : BitVec 12) (s : State),
    ∃ t, exec (.jp nnn) s = .next t ∧ t.pc.toNat = nnn.toNat ∧ t.rs = s.rs ∧ Frame [] s t

/-- R152 (decision D5: the entry is the call's own address, so a 00EE that pops it resumes 2 past the call; decision D7:
a fault changes only `RS`): 2nnn. -/
def Obligations.CallPushesItsAddressAndJumps : Prop :=
  EncodedBy 0xF000 0x2000 (fun w => .call (nnnOf w)) ∧
  ∀ (nnn : BitVec 12) (s : State),
    (s.sp.val < 16 →
      ∃ t, exec (.call nnn) s = .next t ∧ t.pc.toNat = nnn.toNat ∧ t.rs = s.rs ∧ t.sp.val = s.sp.val + 1 ∧
        (∀ k : Fin 16, t.resumeAt k = if k.val = s.sp.val then s.pc.toNat + 2 else s.resumeAt k) ∧ Frame [.stack] s t) ∧
    (s.sp.val = 16 → exec (.call nnn) s = .next (haltedWith s .stackOverflow))

/-- R150 (decisions D5 and D6): 00EE. The popped entry is not cleared. -/
def Obligations.RetResumesAfterTheCall : Prop :=
  EncodedBy 0xFFFF 0x00EE (fun _ => .ret) ∧
  ∀ s : State,
    (∀ k : Fin 16, s.sp.val = k.val + 1 →
      ∃ t, exec .ret s = .next t ∧ Completes s t (s.resumeAt k) ∧ t.sp.val = k.val ∧
        (∀ j, t.resumeAt j = s.resumeAt j) ∧ Frame [.stack] s t) ∧
    (s.sp.val = 0 → exec .ret s = .next (haltedWith s .stackUnderflow))

/-- R153, R154: the skips on an immediate. -/
def Obligations.SkipsOnImmediates : Prop :=
  EncodedBy 0xF000 0x3000 (fun w => .seVxKk (xOf w) (kkOf w)) ∧
  EncodedBy 0xF000 0x4000 (fun w => .sneVxKk (xOf w) (kkOf w)) ∧
  ∀ (x : Reg) (kk : Byte) (s : State),
    (∃ t, exec (.seVxKk x kk) s = .next t ∧ Frame [] s t ∧
      Completes s t (if s.readV x = kk then s.pc.toNat + 4 else s.pc.toNat + 2)) ∧
    ∃ t, exec (.sneVxKk x kk) s = .next t ∧ Frame [] s t ∧
      Completes s t (if s.readV x ≠ kk then s.pc.toNat + 4 else s.pc.toNat + 2)

/-- R155, R156 (decision D11 is about the neighbouring words): the skips on two registers. -/
def Obligations.SkipsOnRegisters : Prop :=
  EncodedBy 0xF00F 0x5000 (fun w => .seVxVy (xOf w) (yOf w)) ∧
  EncodedBy 0xF00F 0x9000 (fun w => .sneVxVy (xOf w) (yOf w)) ∧
  ∀ (x y : Reg) (s : State),
    (∃ t, exec (.seVxVy x y) s = .next t ∧ Frame [] s t ∧
      Completes s t (if s.readV x = s.readV y then s.pc.toNat + 4 else s.pc.toNat + 2)) ∧
    ∃ t, exec (.sneVxVy x y) s = .next t ∧ Frame [] s t ∧
      Completes s t (if s.readV x ≠ s.readV y then s.pc.toNat + 4 else s.pc.toNat + 2)

/-- R159 (marked `[derived]` by the spec): a 2nnn at `p`, then any host operations but `reset`, without a 00EE executed
at the depth the call left, then a 00EE executed at that depth: execution resumes at `p + 2`, at the depth before the
call. -/
def Obligations.CallThenReturnResumesAfterTheCall : Prop :=
  ∀ (s s1 s2 s3 : State) (w : Word) (nnn : BitVec 12),
    s.rs = .running → fetch s = .ok w → decodeWord w = some (.call nnn) → s.sp.val < 16 → step s = .next s1 →
    NoReturnAt s1.sp.val s1 s2 → ExecutesRet s2 → s2.sp = s1.sp → step s2 = .next s3 →
    s3.pc.toNat = s.pc.toNat + 2 ∧ s3.sp = s.sp

/-! ## ALU and register arithmetic -/

/-- R175, R177, R240: 6xkk, 8xy0 and Fx07 write their register, set no flag and change nothing else. -/
def Obligations.LoadsWriteTheirRegister : Prop :=
  EncodedBy 0xF000 0x6000 (fun w => .ldVxKk (xOf w) (kkOf w)) ∧
  EncodedBy 0xF00F 0x8000 (fun w => .ldVxVy (xOf w) (yOf w)) ∧
  EncodedBy 0xF0FF 0xF007 (fun w => .ldVxDt (xOf w)) ∧
  ∀ (x y : Reg) (kk : Byte) (s : State),
    (∃ t, exec (.ldVxKk x kk) s = .next t ∧ t.readV x = kk ∧ (∀ r, r ≠ x → t.readV r = s.readV r) ∧
      Frame [.v] s t ∧ Completes s t (s.pc.toNat + 2)) ∧
    (∃ t, exec (.ldVxVy x y) s = .next t ∧ t.readV x = s.readV y ∧ (∀ r, r ≠ x → t.readV r = s.readV r) ∧
      Frame [.v] s t ∧ Completes s t (s.pc.toNat + 2)) ∧
    ∃ t, exec (.ldVxDt x) s = .next t ∧ t.readV x = s.dt ∧ (∀ r, r ≠ x → t.readV r = s.readV r) ∧
      Frame [.v] s t ∧ Completes s t (s.pc.toNat + 2)

/-- R176: 7xkk adds modulo 256 and sets no flag. -/
def Obligations.AddImmediateWrapsWithoutFlag : Prop :=
  EncodedBy 0xF000 0x7000 (fun w => .addVxKk (xOf w) (kkOf w)) ∧
  ∀ (x : Reg) (kk : Byte) (s : State),
    ∃ t, exec (.addVxKk x kk) s = .next t ∧ (t.readV x).toNat = ((s.readV x).toNat + kk.toNat) % 256 ∧
      (∀ r, r ≠ x → t.readV r = s.readV r) ∧ Frame [.v] s t ∧ Completes s t (s.pc.toNat + 2)

/-- R178, R179, R180 (decision D14: `VF` is unchanged unless it is `Vx`): 8xy1, 8xy2, 8xy3, bit by bit. -/
def Obligations.BitwiseOperations : Prop :=
  EncodedBy 0xF00F 0x8001 (fun w => .orVxVy (xOf w) (yOf w)) ∧
  EncodedBy 0xF00F 0x8002 (fun w => .andVxVy (xOf w) (yOf w)) ∧
  EncodedBy 0xF00F 0x8003 (fun w => .xorVxVy (xOf w) (yOf w)) ∧
  ∀ (x y : Reg) (s : State),
    (∃ t, exec (.orVxVy x y) s = .next t ∧
      (∀ k, (t.readV x).getLsbD k = ((s.readV x).getLsbD k || (s.readV y).getLsbD k)) ∧
      (∀ r, r ≠ x → t.readV r = s.readV r) ∧ Frame [.v] s t ∧ Completes s t (s.pc.toNat + 2)) ∧
    (∃ t, exec (.andVxVy x y) s = .next t ∧
      (∀ k, (t.readV x).getLsbD k = ((s.readV x).getLsbD k && (s.readV y).getLsbD k)) ∧
      (∀ r, r ≠ x → t.readV r = s.readV r) ∧ Frame [.v] s t ∧ Completes s t (s.pc.toNat + 2)) ∧
    ∃ t, exec (.xorVxVy x y) s = .next t ∧
      (∀ k, (t.readV x).getLsbD k = Bool.xor ((s.readV x).getLsbD k) ((s.readV y).getLsbD k)) ∧
      (∀ r, r ≠ x → t.readV r = s.readV r) ∧ Frame [.v] s t ∧ Completes s t (s.pc.toNat + 2)

/-- R181: 8xy4, for both values of `FLAG_WRITE_ORDER`. -/
def Obligations.AddRegistersSetsCarry : Prop :=
  EncodedBy 0xF00F 0x8004 (fun w => .addVxVy (xOf w) (yOf w)) ∧
  ∀ (x y : Reg) (s : State),
    ∃ t, exec (.addVxVy x y) s = .next t ∧
      FlaggedResult s t x (((s.readV x).toNat + (s.readV y).toNat) % 256)
        (255 < (s.readV x).toNat + (s.readV y).toNat) ∧
      Frame [.v] s t ∧ Completes s t (s.pc.toNat + 2)

/-- R182, R184, R172: 8xy5 and 8xy7, with the strict comparison, for both values of `FLAG_WRITE_ORDER`. -/
def Obligations.SubtractionsSetStrictGreater : Prop :=
  EncodedBy 0xF00F 0x8005 (fun w => .subVxVy (xOf w) (yOf w)) ∧
  EncodedBy 0xF00F 0x8007 (fun w => .subnVxVy (xOf w) (yOf w)) ∧
  ∀ (x y : Reg) (s : State),
    (∃ t, exec (.subVxVy x y) s = .next t ∧
      FlaggedResult s t x (((s.readV x).toNat + 256 - (s.readV y).toNat) % 256)
        ((s.readV x).toNat > (s.readV y).toNat) ∧
      Frame [.v] s t ∧ Completes s t (s.pc.toNat + 2)) ∧
    ∃ t, exec (.subnVxVy x y) s = .next t ∧
      FlaggedResult s t x (((s.readV y).toNat + 256 - (s.readV x).toNat) % 256)
        ((s.readV y).toNat > (s.readV x).toNat) ∧
      Frame [.v] s t ∧ Completes s t (s.pc.toNat + 2)

/-- R183, R185 (decision D15: `Vx` is shifted, `y` is not read): 8xy6 and 8xyE, for both values of
`FLAG_WRITE_ORDER`. -/
def Obligations.ShiftsSetTheBitShiftedOut : Prop :=
  EncodedBy 0xF00F 0x8006 (fun w => .shrVx (xOf w) (yOf w)) ∧
  EncodedBy 0xF00F 0x800E (fun w => .shlVx (xOf w) (yOf w)) ∧
  ∀ (x y : Reg) (s : State),
    (∃ t, exec (.shrVx x y) s = .next t ∧
      FlaggedResult s t x ((s.readV x).toNat / 2) ((s.readV x).toNat % 2 = 1) ∧
      Frame [.v] s t ∧ Completes s t (s.pc.toNat + 2)) ∧
    ∃ t, exec (.shlVx x y) s = .next t ∧
      FlaggedResult s t x ((s.readV x).toNat * 2 % 256) (128 ≤ (s.readV x).toNat) ∧
      Frame [.v] s t ∧ Completes s t (s.pc.toNat + 2)

/-- R174 (decision D13): "The two orders differ only when `x = 0xF`". Running one instruction under another value of the
parameters changes a register only for a flagged instruction on `VF`, and then only `VF`; and nothing else but the
parameters themselves. -/
def Obligations.WriteOrdersDifferOnlyOnVF : Prop :=
  ∀ (i : Instr) (s t u : State) (p : Params), exec i s = .next t → exec i { s with params := p } = .next u →
    (∀ r, u.readV r ≠ t.readV r → r = VF ∧
      ∃ y, i = .addVxVy VF y ∨ i = .subVxVy VF y ∨ i = .shrVx VF y ∨ i = .subnVxVy VF y ∨ i = .shlVx VF y) ∧
    { u with v := t.v, params := t.params } = t ∧ u.params = p

/-! ## Index register and memory transfers -/

/-- R200: Annn. -/
def Obligations.LoadIndexImmediate : Prop :=
  EncodedBy 0xF000 0xA000 (fun w => .ldINnn (nnnOf w)) ∧
  ∀ (nnn : BitVec 12) (s : State),
    ∃ t, exec (.ldINnn nnn) s = .next t ∧ t.i.toNat = nnn.toNat ∧ Frame [.i] s t ∧ Completes s t (s.pc.toNat + 2)

/-- R201 (decision D20: the full 8-bit value is used): Fx29. -/
def Obligations.LoadGlyphAddress : Prop :=
  EncodedBy 0xF0FF 0xF029 (fun w => .ldFVx (xOf w)) ∧
  ∀ (x : Reg) (s : State),
    ∃ t, exec (.ldFVx x) s = .next t ∧ t.i.toNat = (s.readV x).toNat * 5 ∧ t.i.toNat ≤ 0x4FB ∧ Frame [.i] s t ∧
      Completes s t (s.pc.toNat + 2)

/-- R202 (decision D8: the range check comes before any write): Fx33. The three bytes stored to are at the address in
`I`; every other byte reads as before. -/
def Obligations.StoreDecimalDigits : Prop :=
  EncodedBy 0xF0FF 0xF033 (fun w => .ldBVx (xOf w)) ∧
  (∀ (x : Reg) (s : State), s.mem.wf → s.i.toNat + 2 ≤ 0xFFF →
    ∃ t, exec (.ldBVx x) s = .next t ∧
      (t.readMem s.i.toNat).toNat = (s.readV x).toNat / 100 ∧
      (t.readMem (s.i.toNat + 1)).toNat = (s.readV x).toNat / 10 % 10 ∧
      (t.readMem (s.i.toNat + 2)).toNat = (s.readV x).toNat % 10 ∧
      (∀ a, a < s.i.toNat ∨ s.i.toNat + 2 < a → t.readMem a = s.readMem a) ∧
      Frame [.mem] s t ∧ Completes s t (s.pc.toNat + 2)) ∧
  ∀ (x : Reg) (s : State), 0xFFF < s.i.toNat + 2 →
    exec (.ldBVx x) s = .next (haltedWith s (firstBad s.i.toNat))

/-- R203 (decision D8, and D19: `I` is unchanged): Fx55. -/
def Obligations.StoreRegisterBlock : Prop :=
  EncodedBy 0xF0FF 0xF055 (fun w => .ldMemVx (xOf w)) ∧
  (∀ (x : Reg) (s : State), s.mem.wf → s.i.toNat + x.val ≤ 0xFFF →
    ∃ t, exec (.ldMemVx x) s = .next t ∧
      (∀ k : Reg, k ≤ x → t.readMem (s.i.toNat + k.val) = s.readV k) ∧
      (∀ a, a < s.i.toNat ∨ s.i.toNat + x.val < a → t.readMem a = s.readMem a) ∧
      Frame [.mem] s t ∧ Completes s t (s.pc.toNat + 2)) ∧
  ∀ (x : Reg) (s : State), 0xFFF < s.i.toNat + x.val →
    exec (.ldMemVx x) s = .next (haltedWith s (firstBad s.i.toNat))

/-- R204 (decision D8, and D19: `I` is unchanged): Fx65. -/
def Obligations.LoadRegisterBlock : Prop :=
  EncodedBy 0xF0FF 0xF065 (fun w => .ldVxMem (xOf w)) ∧
  (∀ (x : Reg) (s : State), s.i.toNat + x.val ≤ 0xFFF →
    ∃ t, exec (.ldVxMem x) s = .next t ∧
      (∀ k : Reg, t.readV k = if k ≤ x then s.readMem (s.i.toNat + k.val) else s.readV k) ∧
      Frame [.v] s t ∧ Completes s t (s.pc.toNat + 2)) ∧
  ∀ (x : Reg) (s : State), 0xFFF < s.i.toNat + x.val →
    exec (.ldVxMem x) s = .next (haltedWith s (firstBad s.i.toNat))

/-- R76, R297 (decision D23): the words a 16-register block is made of are what the next fetch reads, wherever `pc` then
points into the block just stored. -/
def Obligations.StoredBytesAreFetchedNext : Prop :=
  ∀ (x k j : Reg) (s t u : State), s.mem.wf → s.i.toNat + x.val ≤ 0xFFF → exec (.ldMemVx x) s = .next t →
    k < x → j.val = k.val + 1 → u.mem = t.mem → u.pc.toNat = s.i.toNat + k.val →
    fetch u = .ok (wordOfBytes (s.readV k) (s.readV j))

/-! ## Display -/

/-- R224: 00E0 turns every pixel off, leaves `VF` alone and emits one `clear()`. -/
def Obligations.ClsClearsTheFramebuffer : Prop :=
  EncodedBy 0xFFFF 0x00E0 (fun _ => .cls) ∧
  ∀ s : State, (∃ t, exec .cls s = .next t ∧ (∀ px py, t.fbRead px py = false) ∧ Frame [.fb] s t ∧
    Completes s t (s.pc.toNat + 2)) ∧ instrNotifications .cls s = [.clear]

/-- R225 to R228 (decisions D8, D16, D17, D18): Dxyn toggles exactly the on-screen pixels under a sprite bit 1, `VF`
becomes 1 exactly when one of them was on, and 0 otherwise; a sprite that passes 0xFFF halts the core. -/
def Obligations.DrwTogglesTheSpritePixels : Prop :=
  EncodedBy 0xF000 0xD000 (fun w => .drw (xOf w) (yOf w) (nOf w)) ∧
  (∀ (x y : Reg) (n : BitVec 4) (s : State), s.i.toNat + n.toNat ≤ 0x1000 ∨ n = 0 →
    ∃ t, exec (.drw x y n) s = .next t ∧
      (∀ (px : Fin 64) (py : Fin 32), t.fbRead px py = Bool.xor (s.fbRead px py) (spriteBit s x y n px py)) ∧
      (t.readV VF = 1 ↔ ∃ (px : Fin 64) (py : Fin 32), s.fbRead px py = true ∧ spriteBit s x y n px py = true) ∧
      (t.readV VF = 1 ∨ t.readV VF = 0) ∧
      (∀ r, r ≠ VF → t.readV r = s.readV r) ∧ Frame [.v, .fb] s t ∧ Completes s t (s.pc.toNat + 2)) ∧
  ∀ (x y : Reg) (n : BitVec 4) (s : State), 0x1000 < s.i.toNat + n.toNat → n ≠ 0 →
    exec (.drw x y n) s = .next (haltedWith s (firstBad s.i.toNat))

/-- R230 (decision D26): a Dxyn that does not fault emits `setPixel` once per toggled pixel, rows top to bottom and
columns left to right, with the pixel's new value; one that faults emits nothing. -/
def Obligations.DrwNotifiesEachToggledPixelInOrder : Prop :=
  ∀ (x y : Reg) (n : BitVec 4) (s : State),
    (s.i.toNat + n.toNat ≤ 0x1000 ∨ n = 0 →
      instrNotifications (.drw x y n) s =
        (List.range n.toNat).flatMap fun row => (List.range 8).flatMap fun col =>
          if h : (s.readV x).toNat + col < 64 ∧ (s.readV y).toNat + row < 32 then
            if (s.readMem (s.i.toNat + row)).getLsbD (7 - col) then
              [.setPixel ⟨(s.readV x).toNat + col, h.1⟩ ⟨(s.readV y).toNat + row, h.2⟩
                (!s.fbRead ⟨(s.readV x).toNat + col, h.1⟩ ⟨(s.readV y).toNat + row, h.2⟩)]
            else []
          else []) ∧
    (0x1000 < s.i.toNat + n.toNat → n ≠ 0 → instrNotifications (.drw x y n) s = [])

/-- R230 (decision D26): a display sink that started from the framebuffer before a step and follows the notifications of
the step holds the framebuffer after it, whatever the step did. -/
def Obligations.NotificationsMirrorTheFramebuffer : Prop :=
  ∀ s t : State, step s = .next t → (stepNotifications s).foldl Notification.render s.fb = t.fb

/-- R229 (marked `[derived]` by the spec): after a Dxyn on `s`, the same Dxyn on any state with the same coordinates, `I`,
sprite bytes and the framebuffer the first one left restores the framebuffer of `s`, and `VF` becomes 1 exactly when some
on-screen pixel under a sprite bit 1 was off in `s`. -/
def Obligations.DrawingTwiceRestoresTheFramebuffer : Prop :=
  ∀ (x y : Reg) (n : BitVec 4) (s t u : State), s.i.toNat + n.toNat ≤ 0x1000 ∨ n = 0 →
    exec (.drw x y n) s = .next t → u.fb = t.fb → u.readV x = s.readV x → u.readV y = s.readV y → u.i = s.i →
    (∀ k, k < n.toNat → u.readMem (s.i.toNat + k) = s.readMem (s.i.toNat + k)) →
    ∃ w, exec (.drw x y n) u = .next w ∧ w.fb = s.fb ∧
      (w.readV VF = 1 ↔ ∃ (px : Fin 64) (py : Fin 32), spriteBit s x y n px py = true ∧ s.fbRead px py = false) ∧
      (w.readV VF = 1 ∨ w.readV VF = 0)

/-! ## Timers and key input -/

/-- R242, R243: Fx15 and Fx18. -/
def Obligations.TimerLoads : Prop :=
  EncodedBy 0xF0FF 0xF015 (fun w => .ldDtVx (xOf w)) ∧
  EncodedBy 0xF0FF 0xF018 (fun w => .ldStVx (xOf w)) ∧
  ∀ (x : Reg) (s : State),
    (∃ t, exec (.ldDtVx x) s = .next t ∧ t.dt = s.readV x ∧ Frame [.dt] s t ∧ Completes s t (s.pc.toNat + 2)) ∧
    ∃ t, exec (.ldStVx x) s = .next t ∧ t.st = s.readV x ∧ Frame [.st] s t ∧ Completes s t (s.pc.toNat + 2)

/-- R241 (decision D21): Fx0A puts the core in `AwaitingKey(x)` and changes nothing else; any number of ticks and steps
later a key completes it: `V[x] <- k`, `pc <- p + 2`. -/
def Obligations.KeyWaitAndResume : Prop :=
  EncodedBy 0xF0FF 0xF00A (fun w => .ldVxK (xOf w)) ∧
  ∀ (x : Reg) (s : State),
    exec (.ldVxK x) s = .next { s with rs := .awaitingKey x } ∧
    ∀ (ops : List HostOp) (k : BitVec 4), (∀ op ∈ ops, op = .tick ∨ op = .step ∨ op = .read) →
      ∃ t, t = hostRun (ops ++ [.key k]) { s with rs := .awaitingKey x } ∧
        (t.readV x).toNat = k.toNat ∧ (∀ r, r ≠ x → t.readV r = s.readV r) ∧ Frame [.v, .dt, .st] s t ∧
        t.pc = BitVec.ofNat 16 (s.pc.toNat + 2) ∧
        t.rs = if s.pc.toNat + 2 > 0xFFF then .halted .endOfMemory else .running

/-- R244 (decisions D21, D35: a 4-bit key; a key elsewhere is lost, which `WaitingAndHaltedCoresDoNotStep` says): a key
in `AwaitingKey(x)` goes to `V[x]`, `pc` moves by 2, and nothing else changes. -/
def Obligations.KeyCompletesTheWait : Prop :=
  ∀ (s : State) (x : Reg) (k : BitVec 4), s.rs = .awaitingKey x →
    ∃ t, hostOp (.key k) s = .next t ∧ (t.readV x).toNat = k.toNat ∧ (∀ r, r ≠ x → t.readV r = s.readV r) ∧
      Frame [.v] s t ∧ t.pc = BitVec.ofNat 16 (s.pc.toNat + 2) ∧
      t.rs = if s.pc.toNat + 2 > 0xFFF then .halted .endOfMemory else .running

/-- R245 (decision D22: nothing in `Halted`): `tick()` takes 1 from each timer that is not zero and changes nothing
else. -/
def Obligations.TickDecrementsAndClamps : Prop :=
  ∀ s : State, ∃ t, hostOp .tick s = .next t ∧ Frame [.dt, .st] s t ∧ t.pc = s.pc ∧ t.rs = s.rs ∧
    ((∀ c, s.rs ≠ .halted c) → t.dt.toNat = s.dt.toNat - 1 ∧ t.st.toNat = s.st.toNat - 1) ∧
    (∀ c, s.rs = .halted c → t.dt = s.dt ∧ t.st = s.st)

/-- R246 (decision D22: any interleaving): a tick before a step and a tick after it give the same state, unless the step
executes Fx07, Fx15 or Fx18 or halts the core. -/
def Obligations.TicksCommuteWithOtherSteps : Prop :=
  ∀ s t : State, s.rs = .running → step s = .next t → (∀ c, t.rs ≠ .halted c) →
    (∀ w x, fetch s = .ok w →
      decodeWord w ≠ some (.ldVxDt x) ∧ decodeWord w ≠ some (.ldDtVx x) ∧ decodeWord w ≠ some (.ldStVx x)) →
    step (tickOp s) = .next (tickOp t)

/-! ## Whole-machine rules -/

/-- R33 (marked `[derived]` by the spec), column "writes": an instruction changes no register that its row does not
list. -/
def Obligations.OnlyListedRegistersAreWritten : Prop :=
  ∀ (i : Instr) (s t : State) (r : Reg), exec i s = .next t → t.readV r ≠ s.readV r → writesReg i r = true

/-- R33 (marked `[derived]` by the spec), column "reads": the value of a register that an instruction's row does not list
has no influence on anything it does, but on that register itself. -/
def Obligations.UnlistedRegistersAreNotRead : Prop :=
  ∀ (i : Instr) (s : State) (r : Reg) (b : Byte), readsReg i r = false →
    ∃ t u, exec i s = .next t ∧ exec i (s.writeV r b) = .next u ∧ (∀ q, q ≠ r → u.readV q = t.readV q) ∧
      Frame [.v] t u ∧ u.pc = t.pc ∧ u.rs = t.rs

/-- R34, R37, R38, R39, R46, R65: who writes what. Each piece of state other than `V` is changed by the instructions the
rules name for it and by no other; no instruction changes the parameters. -/
def Obligations.EachPartHasItsWriters : Prop :=
  ∀ (i : Instr) (s t : State), exec i s = .next t →
    (t.i ≠ s.i → (∃ nnn, i = .ldINnn nnn) ∨ ∃ x, i = .ldFVx x) ∧
    (t.dt ≠ s.dt → ∃ x, i = .ldDtVx x) ∧
    (t.st ≠ s.st → ∃ x, i = .ldStVx x) ∧
    (t.sp ≠ s.sp ∨ t.stack ≠ s.stack → i = .ret ∨ ∃ nnn, i = .call nnn) ∧
    (t.mem ≠ s.mem → (∃ x, i = .ldBVx x) ∨ ∃ x, i = .ldMemVx x) ∧
    (t.fb ≠ s.fb → i = .cls ∨ ∃ x y n, i = .drw x y n) ∧
    t.params = s.params

/-- The invariant (R34, R36, R39, R60, R64) holds after reset. -/
def Obligations.ResetSatisfiesTheInvariant : Prop := Inv State.reset

/-- The invariant (R34, R36, R39, R60, R64, R134): every step from a state that meets it gives a state that meets it. -/
def Obligations.StepKeepsTheInvariant : Prop := ∀ s t : State, Inv s → step s = .next t → Inv t

/-- R36, R134 (marked `[derived]` by the spec), R34, R64: in every state that any host operations lead to, from any
image and any parameters, `pc` is at most 0xFFF unless the core has halted at the end of memory, and then at most 0x1002;
`I` is at most 0xFFF; a recorded address is 0x1000; and memory is canonical. -/
def Obligations.ReachableStatesAreLegal : Prop :=
  ∀ s : State, Reachable s →
    s.mem.wf ∧ s.i.toNat ≤ 0xFFF ∧ s.pc.toNat ≤ 0x1002 ∧ (0xFFF < s.pc.toNat ↔ s.rs = .halted .endOfMemory) ∧
    ∀ a, s.rs = .halted (.addressOutOfRange a) → a = 0x1000

/-! ## Reset -/

/-- R48, R290, R292 (the zero registers and the clear framebuffer are decision D3): `reset(image)` from any state. The
font bytes are those of the parameter (decision D24); memory after the image is zero. The stack has no live entry, and of
dead ones nothing is said (93_implementation_defined.md U4). -/
def Obligations.ResetLoadsFontAndImage : Prop :=
  ∀ (image : List Byte) (s : State), image.length ≤ 0xE00 →
    ∃ t, hostOp (.reset image) s = .next t ∧
      (∀ a : Fin 80, t.readMem a.val = s.params.font[a]) ∧
      (∀ a, 0x050 ≤ a → a < 0x200 → t.readMem a = 0x00) ∧
      (∀ k, k < image.length → t.readMem (0x200 + k) = image.getD k 0) ∧
      (∀ a, 0x200 + image.length ≤ a → a < 0x1000 → t.readMem a = 0x00) ∧
      (∀ r, t.readV r = 0x00) ∧ t.i = 0x000 ∧ t.dt = 0x00 ∧ t.st = 0x00 ∧ t.sp = 0 ∧
      (∀ px py, t.fbRead px py = false) ∧ t.pc = 0x200 ∧ t.rs = .running ∧
      t.params = s.params ∧ t.mem.wf

/-- R293 (decision D25): an image over 0xE00 bytes is refused, and a run of host operations goes on from the state as it
was. -/
def Obligations.LongImagesAreRefused : Prop :=
  ∀ (image : List Byte) (s : State), 0xE00 < image.length →
    hostOp (.reset image) s = .refused (.imageTooLong image.length) ∧
    ∀ ops, hostRun (.reset image :: ops) s = hostRun ops s

/-- R48 (the zero registers are decision D3, the font bytes decision D24, log 4 and log 5): the reset state is that of an
empty image with the default parameters: the default font at 0x000, zeros elsewhere, `pc = 0x200`, `Running`. -/
def Obligations.ResetStateIsTheEmptyImage : Prop :=
  State.reset = loadImage defaultParams [] ∧ State.reset.pc = 0x200 ∧ State.reset.rs = .running ∧
  (List.range 5).map State.reset.readMem = [0xF0, 0x90, 0x90, 0x90, 0xF0] ∧
  (List.range 5).map (fun k => State.reset.readMem (0x04B + k)) = [0xF0, 0x80, 0xF0, 0x80, 0x80] ∧
  State.reset.readMem 0x050 = 0x00 ∧ State.reset.readMem 0x200 = 0x00 ∧ State.reset.readMem 0xFFF = 0x00
end

