-- ==== Sys2Proof/Laws/Decode.lean ====
section
/-! SUPPORT. A word as its four nibbles: every field view, mask and form of the encoder in terms of them. -/

namespace Sys2Proof

/-- The word with the given four nibbles (R91). -/
def wordOf (f x y n : BitVec 4) : Word := f ++ x ++ y ++ n

/-- Every word is the word of its four nibbles. -/
theorem word_eq_wordOf (w : Word) :
    w = wordOf (w.extractLsb' 12 4) (w.extractLsb' 8 4) (w.extractLsb' 4 4) (w.extractLsb' 0 4) := by
  unfold wordOf
  rw [BitVec.extractLsb'_append_extractLsb'_eq_extractLsb' (by rfl)]
  rw [BitVec.extractLsb'_append_extractLsb'_eq_extractLsb' (by rfl)]
  rw [BitVec.extractLsb'_append_extractLsb'_eq_extractLsb' (by rfl)]
  exact BitVec.extractLsb'_eq_self.symm

theorem exists_wordOf (w : Word) : ∃ f x y n, w = wordOf f x y n := ⟨_, _, _, _, word_eq_wordOf w⟩

/-! ## Field views -/

@[simp] theorem familyOf_wordOf (f x y n : BitVec 4) : familyOf (wordOf f x y n) = f := by
  unfold familyOf wordOf
  rw [BitVec.extractLsb'_append_eq_of_le (by decide), BitVec.extractLsb'_append_eq_of_le (by decide)]
  exact BitVec.extractLsb'_append_eq_left

@[simp] theorem xOf_wordOf (f x y n : BitVec 4) : xOf (wordOf f x y n) = x.toFin := by
  unfold xOf wordOf
  rw [BitVec.extractLsb'_append_eq_of_le (by decide), BitVec.extractLsb'_append_eq_of_le (by decide)]
  exact congrArg BitVec.toFin BitVec.extractLsb'_append_eq_right

@[simp] theorem yOf_wordOf (f x y n : BitVec 4) : yOf (wordOf f x y n) = y.toFin := by
  unfold yOf wordOf
  rw [BitVec.extractLsb'_append_eq_of_le (by decide)]
  exact congrArg BitVec.toFin BitVec.extractLsb'_append_eq_right

@[simp] theorem nOf_wordOf (f x y n : BitVec 4) : nOf (wordOf f x y n) = n :=
  BitVec.extractLsb'_append_eq_right

@[simp] theorem kkOf_wordOf (f x y n : BitVec 4) : kkOf (wordOf f x y n) = y ++ n := by
  unfold kkOf wordOf
  rw [BitVec.append_assoc]
  exact BitVec.extractLsb'_append_eq_right

@[simp] theorem nnnOf_wordOf (f x y n : BitVec 4) : nnnOf (wordOf f x y n) = x ++ y ++ n := by
  unfold nnnOf wordOf
  rw [BitVec.append_assoc, BitVec.append_assoc]
  refine (BitVec.extractLsb'_append_eq_right (w := 4) (w' := 12)).trans ?_
  exact (BitVec.append_assoc (x₁ := x) (x₂ := y) (x₃ := n)).symm

/-- The word's value from its nibbles. -/
theorem toNat_wordOf (f x y n : BitVec 4) :
    (wordOf f x y n).toNat = f.toNat * 4096 + x.toNat * 256 + y.toNat * 16 + n.toNat := by
  have h (m : Nat) (a : BitVec m) (b : BitVec 4) : (a ++ b).toNat = a.toNat * 16 + b.toNat := by
    rw [BitVec.toNat_append, Nat.shiftLeft_eq, show (2 : Nat) ^ 4 = 16 from rfl]
    have := Nat.shiftLeft_add_eq_or_of_lt (b := b.toNat) (i := 4) b.isLt a.toNat
    rw [← show a.toNat <<< 4 = a.toNat * 16 by rw [Nat.shiftLeft_eq], ← this]
  unfold wordOf
  rw [h, h, h]
  omega

/-- The nibbles of a word are its own. -/
theorem wordOf_inj {f x y n f' x' y' n' : BitVec 4} (h : wordOf f x y n = wordOf f' x' y' n') :
    f = f' ∧ x = x' ∧ y = y' ∧ n = n' := by
  have hf := congrArg familyOf h
  have hx := congrArg xOf h
  have hy := congrArg yOf h
  have hn := congrArg nOf h
  simp only [familyOf_wordOf, xOf_wordOf, yOf_wordOf, nOf_wordOf] at hf hx hy hn
  exact ⟨hf, BitVec.toFin_inj.mp hx, BitVec.toFin_inj.mp hy, hn⟩

/-- Masking a word masks its nibbles. -/
theorem wordOf_and (f x y n f' x' y' n' : BitVec 4) :
    wordOf f x y n &&& wordOf f' x' y' n' = wordOf (f &&& f') (x &&& x') (y &&& y') (n &&& n') := by
  unfold wordOf
  rw [BitVec.and_append, BitVec.and_append, BitVec.and_append]

theorem nibble_and_F (a : BitVec 4) : a &&& 15#4 = a := BitVec.and_allOnes

/-- Mask 0xF000 keeps the family. -/
theorem wordOf_and_F000 (f x y n : BitVec 4) : wordOf f x y n &&& 0xF000#16 = wordOf f 0 0 0 := by
  rw [show 0xF000#16 = wordOf (BitVec.allOnes 4) 0 0 0 from rfl, wordOf_and]; simp [nibble_and_F]

/-- Mask 0xF00F keeps the family and `n`. -/
theorem wordOf_and_F00F (f x y n : BitVec 4) : wordOf f x y n &&& 0xF00F#16 = wordOf f 0 0 n := by
  rw [show 0xF00F#16 = wordOf (BitVec.allOnes 4) 0 0 (BitVec.allOnes 4) from rfl, wordOf_and]; simp [nibble_and_F]

/-- Mask 0xF0FF keeps the family and `kk`. -/
theorem wordOf_and_F0FF (f x y n : BitVec 4) : wordOf f x y n &&& 0xF0FF#16 = wordOf f 0 y n := by
  rw [show 0xF0FF#16 = wordOf (BitVec.allOnes 4) 0 (BitVec.allOnes 4) (BitVec.allOnes 4) from rfl, wordOf_and]; simp [nibble_and_F]

/-- Mask 0xFFFF keeps the word. -/
theorem and_FFFF (w : Word) : w &&& 0xFFFF#16 = w := by
  rw [show 0xFFFF#16 = BitVec.allOnes 16 from rfl, BitVec.and_allOnes]

/-! ## Forms of the encoder -/

theorem formXyn_eq (f : BitVec 4) (x y : Reg) (n : BitVec 4) :
    formXyn f x y n = wordOf f (regField x) (regField y) n := rfl

theorem formXkk_eq (f : BitVec 4) (x : Reg) (kk : Byte) :
    formXkk f x kk = wordOf f (regField x) (kk.extractLsb' 4 4) (kk.extractLsb' 0 4) := by
  unfold formXkk wordOf
  rw [BitVec.append_assoc (x₂ := kk.extractLsb' 4 4), BitVec.extractLsb'_append_extractLsb'_eq_extractLsb' (by rfl)]
  exact congrArg (f ++ regField x ++ ·) BitVec.extractLsb'_eq_self.symm

theorem formNnn_eq (f : BitVec 4) (nnn : BitVec 12) :
    (f ++ nnn : Word) = wordOf f (nnn.extractLsb' 8 4) (nnn.extractLsb' 4 4) (nnn.extractLsb' 0 4) := by
  unfold wordOf
  rw [BitVec.append_assoc, BitVec.append_assoc, BitVec.extractLsb'_append_extractLsb'_eq_extractLsb' (by rfl),
    BitVec.extractLsb'_append_extractLsb'_eq_extractLsb' (by rfl)]
  exact congrArg (f ++ ·) BitVec.extractLsb'_eq_self.symm

@[simp] theorem regField_toFin (r : Reg) : (regField r).toFin = r := rfl

@[simp] theorem byte_of_nibbles (kk : Byte) : kk.extractLsb' 4 4 ++ kk.extractLsb' 0 4 = kk := by
  rw [BitVec.extractLsb'_append_extractLsb'_eq_extractLsb' (by rfl)]
  exact BitVec.extractLsb'_eq_self

@[simp] theorem addr_of_nibbles (nnn : BitVec 12) :
    nnn.extractLsb' 8 4 ++ nnn.extractLsb' 4 4 ++ nnn.extractLsb' 0 4 = nnn := by
  rw [BitVec.extractLsb'_append_extractLsb'_eq_extractLsb' (by rfl),
    BitVec.extractLsb'_append_extractLsb'_eq_extractLsb' (by rfl)]
  exact BitVec.extractLsb'_eq_self

/-- The two bytes of a word make the word again (R66). -/
@[simp] theorem wordOfBytes_bytesOfWord (w : Word) : wordOfBytes (w.extractLsb' 8 8) (w.extractLsb' 0 8) = w := by
  unfold wordOfBytes
  rw [BitVec.extractLsb'_append_extractLsb'_eq_extractLsb' (by rfl)]
  exact BitVec.extractLsb'_eq_self

@[simp] theorem bytesOfWord_wordOfBytes (hi lo : Byte) : bytesOfWord (wordOfBytes hi lo) = [hi, lo] := by
  unfold bytesOfWord wordOfBytes
  rw [BitVec.extractLsb'_append_eq_left, BitVec.extractLsb'_append_eq_right]

/-- Decoding two bytes and more is decoding their word (R120). -/
theorem decode_cons (hi lo : Byte) (rest : List Byte) :
    decode (hi :: lo :: rest) =
      match decodeWord (wordOfBytes hi lo) with
      | some i => .ok (i, rest)
      | none => .error (.unknownWord (wordOfBytes hi lo)) := rfl

end Sys2Proof
end

