-- ==== Sys2Proof/Laws/State.lean ====
section
/-! SUPPORT. One lemma per field and update of `State`, true by rfl, so that no proof unfolds a record update; and the
reads through the named accessors. -/

namespace Sys2Proof.Machine

/-! ### writeV -/

@[simp] theorem writeV_v (s : State) (r : Reg) (b : Byte) : (s.writeV r b).v = s.v.set r b := rfl
@[simp] theorem writeV_i (s : State) (r : Reg) (b : Byte) : (s.writeV r b).i = s.i := rfl
@[simp] theorem writeV_pc (s : State) (r : Reg) (b : Byte) : (s.writeV r b).pc = s.pc := rfl
@[simp] theorem writeV_dt (s : State) (r : Reg) (b : Byte) : (s.writeV r b).dt = s.dt := rfl
@[simp] theorem writeV_st (s : State) (r : Reg) (b : Byte) : (s.writeV r b).st = s.st := rfl
@[simp] theorem writeV_stack (s : State) (r : Reg) (b : Byte) : (s.writeV r b).stack = s.stack := rfl
@[simp] theorem writeV_sp (s : State) (r : Reg) (b : Byte) : (s.writeV r b).sp = s.sp := rfl
@[simp] theorem writeV_fb (s : State) (r : Reg) (b : Byte) : (s.writeV r b).fb = s.fb := rfl
@[simp] theorem writeV_rs (s : State) (r : Reg) (b : Byte) : (s.writeV r b).rs = s.rs := rfl
@[simp] theorem writeV_mem (s : State) (r : Reg) (b : Byte) : (s.writeV r b).mem = s.mem := rfl
@[simp] theorem writeV_params (s : State) (r : Reg) (b : Byte) : (s.writeV r b).params = s.params := rfl

/-! ### writeI -/

@[simp] theorem writeI_v (s : State) (w : Word) : (s.writeI w).v = s.v := rfl
@[simp] theorem writeI_i (s : State) (w : Word) : (s.writeI w).i = w := rfl
@[simp] theorem writeI_pc (s : State) (w : Word) : (s.writeI w).pc = s.pc := rfl
@[simp] theorem writeI_dt (s : State) (w : Word) : (s.writeI w).dt = s.dt := rfl
@[simp] theorem writeI_st (s : State) (w : Word) : (s.writeI w).st = s.st := rfl
@[simp] theorem writeI_stack (s : State) (w : Word) : (s.writeI w).stack = s.stack := rfl
@[simp] theorem writeI_sp (s : State) (w : Word) : (s.writeI w).sp = s.sp := rfl
@[simp] theorem writeI_fb (s : State) (w : Word) : (s.writeI w).fb = s.fb := rfl
@[simp] theorem writeI_rs (s : State) (w : Word) : (s.writeI w).rs = s.rs := rfl
@[simp] theorem writeI_mem (s : State) (w : Word) : (s.writeI w).mem = s.mem := rfl
@[simp] theorem writeI_params (s : State) (w : Word) : (s.writeI w).params = s.params := rfl

/-! ### writeDt -/

@[simp] theorem writeDt_v (s : State) (b : Byte) : (s.writeDt b).v = s.v := rfl
@[simp] theorem writeDt_i (s : State) (b : Byte) : (s.writeDt b).i = s.i := rfl
@[simp] theorem writeDt_pc (s : State) (b : Byte) : (s.writeDt b).pc = s.pc := rfl
@[simp] theorem writeDt_dt (s : State) (b : Byte) : (s.writeDt b).dt = b := rfl
@[simp] theorem writeDt_st (s : State) (b : Byte) : (s.writeDt b).st = s.st := rfl
@[simp] theorem writeDt_stack (s : State) (b : Byte) : (s.writeDt b).stack = s.stack := rfl
@[simp] theorem writeDt_sp (s : State) (b : Byte) : (s.writeDt b).sp = s.sp := rfl
@[simp] theorem writeDt_fb (s : State) (b : Byte) : (s.writeDt b).fb = s.fb := rfl
@[simp] theorem writeDt_rs (s : State) (b : Byte) : (s.writeDt b).rs = s.rs := rfl
@[simp] theorem writeDt_mem (s : State) (b : Byte) : (s.writeDt b).mem = s.mem := rfl
@[simp] theorem writeDt_params (s : State) (b : Byte) : (s.writeDt b).params = s.params := rfl

/-! ### writeSt -/

@[simp] theorem writeSt_v (s : State) (b : Byte) : (s.writeSt b).v = s.v := rfl
@[simp] theorem writeSt_i (s : State) (b : Byte) : (s.writeSt b).i = s.i := rfl
@[simp] theorem writeSt_pc (s : State) (b : Byte) : (s.writeSt b).pc = s.pc := rfl
@[simp] theorem writeSt_dt (s : State) (b : Byte) : (s.writeSt b).dt = s.dt := rfl
@[simp] theorem writeSt_st (s : State) (b : Byte) : (s.writeSt b).st = b := rfl
@[simp] theorem writeSt_stack (s : State) (b : Byte) : (s.writeSt b).stack = s.stack := rfl
@[simp] theorem writeSt_sp (s : State) (b : Byte) : (s.writeSt b).sp = s.sp := rfl
@[simp] theorem writeSt_fb (s : State) (b : Byte) : (s.writeSt b).fb = s.fb := rfl
@[simp] theorem writeSt_rs (s : State) (b : Byte) : (s.writeSt b).rs = s.rs := rfl
@[simp] theorem writeSt_mem (s : State) (b : Byte) : (s.writeSt b).mem = s.mem := rfl
@[simp] theorem writeSt_params (s : State) (b : Byte) : (s.writeSt b).params = s.params := rfl

/-! ### writePc -/

@[simp] theorem writePc_v (s : State) (q : Nat) : (s.writePc q).v = s.v := rfl
@[simp] theorem writePc_i (s : State) (q : Nat) : (s.writePc q).i = s.i := rfl
@[simp] theorem writePc_pc (s : State) (q : Nat) : (s.writePc q).pc = BitVec.ofNat 16 q := rfl
@[simp] theorem writePc_dt (s : State) (q : Nat) : (s.writePc q).dt = s.dt := rfl
@[simp] theorem writePc_st (s : State) (q : Nat) : (s.writePc q).st = s.st := rfl
@[simp] theorem writePc_stack (s : State) (q : Nat) : (s.writePc q).stack = s.stack := rfl
@[simp] theorem writePc_sp (s : State) (q : Nat) : (s.writePc q).sp = s.sp := rfl
@[simp] theorem writePc_fb (s : State) (q : Nat) : (s.writePc q).fb = s.fb := rfl
@[simp] theorem writePc_rs (s : State) (q : Nat) : (s.writePc q).rs = s.rs := rfl
@[simp] theorem writePc_mem (s : State) (q : Nat) : (s.writePc q).mem = s.mem := rfl
@[simp] theorem writePc_params (s : State) (q : Nat) : (s.writePc q).params = s.params := rfl

/-! ### setRs -/

@[simp] theorem setRs_v (s : State) (r : RunState) : (s.setRs r).v = s.v := rfl
@[simp] theorem setRs_i (s : State) (r : RunState) : (s.setRs r).i = s.i := rfl
@[simp] theorem setRs_pc (s : State) (r : RunState) : (s.setRs r).pc = s.pc := rfl
@[simp] theorem setRs_dt (s : State) (r : RunState) : (s.setRs r).dt = s.dt := rfl
@[simp] theorem setRs_st (s : State) (r : RunState) : (s.setRs r).st = s.st := rfl
@[simp] theorem setRs_stack (s : State) (r : RunState) : (s.setRs r).stack = s.stack := rfl
@[simp] theorem setRs_sp (s : State) (r : RunState) : (s.setRs r).sp = s.sp := rfl
@[simp] theorem setRs_fb (s : State) (r : RunState) : (s.setRs r).fb = s.fb := rfl
@[simp] theorem setRs_rs (s : State) (r : RunState) : (s.setRs r).rs = r := rfl
@[simp] theorem setRs_mem (s : State) (r : RunState) : (s.setRs r).mem = s.mem := rfl
@[simp] theorem setRs_params (s : State) (r : RunState) : (s.setRs r).params = s.params := rfl

/-! ### storeBytes -/

@[simp] theorem storeBytes_v (s : State) (a : Nat) (bs : List Byte) : (s.storeBytes a bs).v = s.v := rfl
@[simp] theorem storeBytes_i (s : State) (a : Nat) (bs : List Byte) : (s.storeBytes a bs).i = s.i := rfl
@[simp] theorem storeBytes_pc (s : State) (a : Nat) (bs : List Byte) : (s.storeBytes a bs).pc = s.pc := rfl
@[simp] theorem storeBytes_dt (s : State) (a : Nat) (bs : List Byte) : (s.storeBytes a bs).dt = s.dt := rfl
@[simp] theorem storeBytes_st (s : State) (a : Nat) (bs : List Byte) : (s.storeBytes a bs).st = s.st := rfl
@[simp] theorem storeBytes_stack (s : State) (a : Nat) (bs : List Byte) : (s.storeBytes a bs).stack = s.stack := rfl
@[simp] theorem storeBytes_sp (s : State) (a : Nat) (bs : List Byte) : (s.storeBytes a bs).sp = s.sp := rfl
@[simp] theorem storeBytes_fb (s : State) (a : Nat) (bs : List Byte) : (s.storeBytes a bs).fb = s.fb := rfl
@[simp] theorem storeBytes_rs (s : State) (a : Nat) (bs : List Byte) : (s.storeBytes a bs).rs = s.rs := rfl
@[simp] theorem storeBytes_mem (s : State) (a : Nat) (bs : List Byte) : (s.storeBytes a bs).mem = s.mem.writeBytes a bs := rfl
@[simp] theorem storeBytes_params (s : State) (a : Nat) (bs : List Byte) : (s.storeBytes a bs).params = s.params := rfl

/-! ### fbClear -/

@[simp] theorem fbClear_v (s : State) : s.fbClear.v = s.v := rfl
@[simp] theorem fbClear_i (s : State) : s.fbClear.i = s.i := rfl
@[simp] theorem fbClear_pc (s : State) : s.fbClear.pc = s.pc := rfl
@[simp] theorem fbClear_dt (s : State) : s.fbClear.dt = s.dt := rfl
@[simp] theorem fbClear_st (s : State) : s.fbClear.st = s.st := rfl
@[simp] theorem fbClear_stack (s : State) : s.fbClear.stack = s.stack := rfl
@[simp] theorem fbClear_sp (s : State) : s.fbClear.sp = s.sp := rfl
@[simp] theorem fbClear_fb (s : State) : s.fbClear.fb = clearFb := rfl
@[simp] theorem fbClear_rs (s : State) : s.fbClear.rs = s.rs := rfl
@[simp] theorem fbClear_mem (s : State) : s.fbClear.mem = s.mem := rfl
@[simp] theorem fbClear_params (s : State) : s.fbClear.params = s.params := rfl

/-! ### setFb -/

@[simp] theorem setFb_v (s : State) (fb : Framebuffer) : (s.setFb fb).v = s.v := rfl
@[simp] theorem setFb_i (s : State) (fb : Framebuffer) : (s.setFb fb).i = s.i := rfl
@[simp] theorem setFb_pc (s : State) (fb : Framebuffer) : (s.setFb fb).pc = s.pc := rfl
@[simp] theorem setFb_dt (s : State) (fb : Framebuffer) : (s.setFb fb).dt = s.dt := rfl
@[simp] theorem setFb_st (s : State) (fb : Framebuffer) : (s.setFb fb).st = s.st := rfl
@[simp] theorem setFb_stack (s : State) (fb : Framebuffer) : (s.setFb fb).stack = s.stack := rfl
@[simp] theorem setFb_sp (s : State) (fb : Framebuffer) : (s.setFb fb).sp = s.sp := rfl
@[simp] theorem setFb_fb (s : State) (fb : Framebuffer) : (s.setFb fb).fb = fb := rfl
@[simp] theorem setFb_rs (s : State) (fb : Framebuffer) : (s.setFb fb).rs = s.rs := rfl
@[simp] theorem setFb_mem (s : State) (fb : Framebuffer) : (s.setFb fb).mem = s.mem := rfl
@[simp] theorem setFb_params (s : State) (fb : Framebuffer) : (s.setFb fb).params = s.params := rfl

/-! ### takeFault -/

@[simp] theorem takeFault_v (s : State) (c : HaltCause) : (s.takeFault c).v = s.v := rfl
@[simp] theorem takeFault_i (s : State) (c : HaltCause) : (s.takeFault c).i = s.i := rfl
@[simp] theorem takeFault_pc (s : State) (c : HaltCause) : (s.takeFault c).pc = s.pc := rfl
@[simp] theorem takeFault_dt (s : State) (c : HaltCause) : (s.takeFault c).dt = s.dt := rfl
@[simp] theorem takeFault_st (s : State) (c : HaltCause) : (s.takeFault c).st = s.st := rfl
@[simp] theorem takeFault_stack (s : State) (c : HaltCause) : (s.takeFault c).stack = s.stack := rfl
@[simp] theorem takeFault_sp (s : State) (c : HaltCause) : (s.takeFault c).sp = s.sp := rfl
@[simp] theorem takeFault_fb (s : State) (c : HaltCause) : (s.takeFault c).fb = s.fb := rfl
@[simp] theorem takeFault_rs (s : State) (c : HaltCause) : (s.takeFault c).rs = .halted c := rfl
@[simp] theorem takeFault_mem (s : State) (c : HaltCause) : (s.takeFault c).mem = s.mem := rfl
@[simp] theorem takeFault_params (s : State) (c : HaltCause) : (s.takeFault c).params = s.params := rfl

end Sys2Proof.Machine
end

