-- ==== Sys2Proof/Laws/Ops.lean ====
section
/-! SUPPORT. One lemma for each shared operation, which says once what it can do: register file, stack, range check,
fetch, outcomes and their commit. -/

namespace Sys2Proof.Machine

/-! ## Registers -/

@[simp] theorem readV_writeV_same (s : State) (r : Reg) (b : Byte) : (s.writeV r b).readV r = b := by
  simp [State.readV]

theorem readV_writeV_other (s : State) {r q : Reg} (b : Byte) (h : q ≠ r) :
    (s.writeV r b).readV q = s.readV q := by
  have h' : r.val ≠ q.val := fun e => h (Fin.ext e.symm)
  simp [State.readV, h']

theorem readV_writeV (s : State) (r q : Reg) (b : Byte) :
    (s.writeV r b).readV q = if q = r then b else s.readV q := by
  by_cases h : q = r
  · simp [h]
  · simp [h, readV_writeV_other]

/-- A read of a register depends on the register file alone. -/
theorem readV_congr {s t : State} (h : t.v = s.v) (r : Reg) : t.readV r = s.readV r := by
  simp [State.readV, h]

/-! ## Call stack (R41, R42) -/

/-- `push` fails exactly on a full stack; otherwise the entry at the old `SP` is `a`, the others are kept, and only the
stack changes. -/
theorem push_eq_none_iff (s : State) (a : Word) : s.push a = none ↔ s.sp.val = 16 := by
  have := s.sp.isLt
  unfold State.push
  split <;> simp <;> omega

theorem push_some {s t : State} {a : Word} (h : s.push a = some t) :
    s.sp.val < 16 ∧ t.sp.val = s.sp.val + 1 ∧
    (∀ k : Fin 16, t.stackEntry k = if k.val = s.sp.val then a else s.stackEntry k) ∧
    t = { s with stack := t.stack, sp := t.sp } := by
  unfold State.push at h
  split at h
  · next hlt =>
    cases h
    refine ⟨hlt, rfl, fun k => ?_, rfl⟩
    simp [State.stackEntry, Vector.getElem_set, eq_comm]
  · cases h

/-- `pop` fails exactly on an empty stack; otherwise it gives the entry below `SP`, keeps every entry, and changes only
`SP`. -/
theorem pop_eq_none_iff (s : State) : s.pop = none ↔ s.sp.val = 0 := by
  unfold State.pop
  split <;> simp <;> omega

theorem pop_some {s t : State} {a : Word} (h : s.pop = some (a, t)) :
    (∃ hk : s.sp.val - 1 < 16, a = s.stackEntry ⟨s.sp.val - 1, hk⟩) ∧ 0 < s.sp.val ∧ t.sp.val + 1 = s.sp.val ∧
    t = { s with sp := t.sp } := by
  have := s.sp.isLt
  unfold State.pop at h
  split at h
  · next hpos =>
    cases h
    refine ⟨⟨by omega, rfl⟩, hpos, ?_, rfl⟩
    simp; omega
  · cases h

/-! ## Range check (R64) -/

theorem rangeCheck_none {a n : Nat} (h : InRange a n) : rangeCheck a n = none := by
  simp [rangeCheck, h]

theorem rangeCheck_some {a n : Nat} (h : ¬InRange a n) : rangeCheck a n = some (firstBad a) := by
  unfold rangeCheck; rw [if_neg h]; rfl

theorem rangeCheck_eq_none_iff (a n : Nat) : rangeCheck a n = none ↔ InRange a n := by
  unfold rangeCheck; split <;> simp_all

/-- A failing check of a base up to 0xFFF always records 0x1000 (R64). -/
theorem firstBad_of_le {a : Nat} (h : a ≤ 0xFFF) : firstBad a = .addressOutOfRange 0x1000 := by
  have : max a 0x1000 = 0x1000 := by omega
  simp [firstBad, this]

/-! ## Fetch (R120) -/

theorem fetch_ok {s : State} (h : s.pcNat ≤ 0xFFE) :
    fetch s = .ok (wordOfBytes (s.readMem s.pcNat) (s.readMem (s.pcNat + 1))) := by
  unfold fetch
  rw [rangeCheck_none (by right; omega)]

theorem fetch_error {s : State} (h : 0xFFE < s.pcNat) : fetch s = .error (firstBad s.pcNat) := by
  unfold fetch
  rw [rangeCheck_some (by rintro (h' | h') <;> omega)]

theorem fetch_eq_ok_iff (s : State) (w : Word) :
    fetch s = .ok w ↔ s.pcNat ≤ 0xFFE ∧ w = wordOfBytes (s.readMem s.pcNat) (s.readMem (s.pcNat + 1)) := by
  by_cases h : s.pcNat ≤ 0xFFE
  · simp [fetch_ok h, h, eq_comm]
  · simp [fetch_error (by omega : 0xFFE < s.pcNat), h]

/-! ## Outcomes and commit (R12, R123, R127 to R130) -/

@[simp] theorem advance_v (s : State) (q : Nat) : (s.advance q).v = s.v := by unfold State.advance; split <;> rfl
@[simp] theorem advance_i (s : State) (q : Nat) : (s.advance q).i = s.i := by unfold State.advance; split <;> rfl
@[simp] theorem advance_pc (s : State) (q : Nat) : (s.advance q).pc = BitVec.ofNat 16 q := by
  unfold State.advance; split <;> rfl
@[simp] theorem advance_dt (s : State) (q : Nat) : (s.advance q).dt = s.dt := by unfold State.advance; split <;> rfl
@[simp] theorem advance_st (s : State) (q : Nat) : (s.advance q).st = s.st := by unfold State.advance; split <;> rfl
@[simp] theorem advance_stack (s : State) (q : Nat) : (s.advance q).stack = s.stack := by
  unfold State.advance; split <;> rfl
@[simp] theorem advance_sp (s : State) (q : Nat) : (s.advance q).sp = s.sp := by unfold State.advance; split <;> rfl
@[simp] theorem advance_fb (s : State) (q : Nat) : (s.advance q).fb = s.fb := by unfold State.advance; split <;> rfl
@[simp] theorem advance_rs (s : State) (q : Nat) :
    (s.advance q).rs = if q > 0xFFF then .halted .endOfMemory else s.rs := by
  unfold State.advance; split <;> simp
@[simp] theorem advance_mem (s : State) (q : Nat) : (s.advance q).mem = s.mem := by unfold State.advance; split <;> rfl
@[simp] theorem advance_params (s : State) (q : Nat) : (s.advance q).params = s.params := by
  unfold State.advance; split <;> rfl

@[simp] theorem advance_readV (s : State) (q : Nat) (r : Reg) : (s.advance q).readV r = s.readV r :=
  readV_congr (advance_v s q) r

/-- A frame of the staged writes is a frame of the committed state. -/
theorem advance_frame {changed : List Part} {s t : State} (h : Frame changed s t) (q : Nat) :
    Frame changed s (t.advance q) := by
  refine ⟨fun p hp => ?_, by simpa using h.2⟩
  have := h.1 p hp
  cases p <;> simpa [Unchanged, State.readV, State.resumeAt, State.stackEntry, State.readMem, State.fbRead] using this

theorem advance_completes {s t : State} (h : t.rs = s.rs) (q : Nat) : Completes s (t.advance q) q := by
  simp [Completes, h]

/-- The commit of an outcome is always a next state. -/
theorem commit_next (s : State) (r : Result) : ∃ t, commit s r = .next t := by
  cases r <;> exact ⟨_, rfl⟩

/-- Everything a commit can do: complete, wait, or take the fault. -/
theorem commit_cases {s t : State} {r : Result} (h : commit s r = .next t) :
    (∃ q u, r = .next q u ∧ t = u.advance q) ∨ (∃ x, r = .await x ∧ t = s.setRs (.awaitingKey x)) ∨
    (∃ c, r = .fault c ∧ t = haltedWith s c) := by
  cases r with
  | next q u => cases h; exact .inl ⟨q, u, rfl, rfl⟩
  | await x => cases h; exact .inr (.inl ⟨x, rfl, rfl⟩)
  | fault c => cases h; exact .inr (.inr ⟨c, rfl, rfl⟩)

@[simp] theorem commit_nextInstr (s t : State) : commit s (nextInstr s t) = .next (t.advance (s.pcNat + 2)) := rfl

theorem commit_afterRangeCheck_ok {s : State} {a n : Nat} (h : InRange a n) (r : Result) :
    commit s (afterRangeCheck a n r) = commit s r := by
  simp [afterRangeCheck, rangeCheck_none h]

theorem commit_afterRangeCheck_fault {s : State} {a n : Nat} (h : ¬InRange a n) (r : Result) :
    commit s (afterRangeCheck a n r) = .next (haltedWith s (firstBad a)) := by
  simp only [afterRangeCheck, rangeCheck_some h]; rfl

theorem commit_skipIf (s : State) (b : Bool) :
    commit s (skipIf s b) = .next (s.advance (s.pcNat + if b then 4 else 2)) := by
  cases b <;> rfl

end Sys2Proof.Machine
end

