-- ==== Sys2Proof/Laws/Flags.lean ====
section
/-! SUPPORT. The arithmetic of the ALU as unbounded integers (R171), and what the two writes of a flagged result do
(R174). -/

namespace Sys2Proof.Machine

theorem sumMod_toNat (a b : Byte) : (sumMod a b).toNat = (a.toNat + b.toNat) % 256 := by
  simp [sumMod]

theorem diffMod_toNat (a b : Byte) : (diffMod a b).toNat = (a.toNat + 256 - b.toNat) % 256 := by
  simp [diffMod]

theorem carryFlag_iff (a b : Byte) : carryFlag a b = true ↔ 255 < a.toNat + b.toNat := by
  simp [carryFlag]

theorem greaterFlag_iff (a b : Byte) : greaterFlag a b = true ↔ a.toNat > b.toNat := by
  simp [greaterFlag]

theorem shrResult_toNat (a b : Byte) : (alu .shr a b).1.toNat = a.toNat / 2 := by
  simp [alu, BitVec.toNat_ushiftRight, Nat.shiftRight_eq_div_pow]

theorem shlResult_toNat (a b : Byte) : (alu .shl a b).1.toNat = a.toNat * 2 % 256 := by
  simp [alu]

theorem lowBit_iff (a : Byte) : a.getLsbD 0 = true ↔ a.toNat % 2 = 1 := by
  simp [BitVec.getLsbD, Nat.testBit_zero]

theorem topBit_iff (a : Byte) : a.getLsbD 7 = true ↔ 128 ≤ a.toNat := by
  have := BitVec.msb_eq_decide a
  rw [BitVec.msb_eq_getLsbD_last] at this
  simp only [Nat.add_one_sub_one] at this
  rw [this]; simp

@[simp] theorem flagByte_true : flagByte true = 1 := rfl
@[simp] theorem flagByte_false : flagByte false = 0 := rfl

theorem flagByte_eq_one_iff (f : Bool) : flagByte f = 1 ↔ f = true := by cases f <;> decide

theorem flagByte_cases (f : Bool) : flagByte f = 1 ∨ flagByte f = 0 := by cases f <;> decide

/-- What the two writes of a flagged result do to the registers, in either order. -/
theorem writeFlagged_flaggedResult (s : State) (x : Reg) (r : Byte) (f : Bool) :
    FlaggedResult s (s.writeFlagged x r f) x r.toNat (f = true) := by
  have hf : (f = true → flagByte f = 1) ∧ (¬f = true → flagByte f = 0) := by cases f <;> decide
  unfold State.writeFlagged FlaggedResult
  cases h : s.params.flagWriteOrder
  · refine ⟨fun hx => ?_, fun hx _ => ?_, fun _ ho => (by cases ho), fun q hq hv => ?_⟩
    · simp only [readV_writeV, Ne.symm hx, if_true, if_false]
      exact ⟨trivial, hf⟩
    · simp [hx]
    · simp [readV_writeV, hq, hv]
  · refine ⟨fun hx => ?_, fun _ ho => (by cases ho), fun _ _ => ?_, fun q hq hv => ?_⟩
    · simp only [readV_writeV, hx, if_true, if_false]
      exact ⟨trivial, hf⟩
    · simpa using hf
    · simp [readV_writeV, hq, hv]

/-- A flagged write changes the register file and nothing else. -/
theorem writeFlagged_eq (s : State) (x : Reg) (r : Byte) (f : Bool) :
    s.writeFlagged x r f = { s with v := (s.writeFlagged x r f).v } := by
  unfold State.writeFlagged
  cases s.params.flagWriteOrder <;> rfl

/-- So does the write of any ALU output. -/
theorem writeAlu_eq (s : State) (x : Reg) (o : Byte × Option Bool) :
    s.writeAlu x o = { s with v := (s.writeAlu x o).v } := by
  obtain ⟨r, _ | f⟩ := o
  · rfl
  · exact writeFlagged_eq s x r f

/-- A state that differs from `s` in the register file alone is framed by it. -/
theorem frame_of_v (s : State) (v : Vector Byte 16) : Frame [.v] s { s with v := v } := by
  refine ⟨fun p hp => ?_, rfl⟩
  cases p <;> simp_all [Unchanged, State.resumeAt, State.stackEntry, State.readMem, State.fbRead]

theorem writeAlu_frame (s : State) (x : Reg) (o : Byte × Option Bool) : Frame [.v] s (s.writeAlu x o) := by
  rw [writeAlu_eq]; exact frame_of_v s _

theorem writeV_frame (s : State) (r : Reg) (b : Byte) : Frame [.v] s (s.writeV r b) := frame_of_v s _

end Sys2Proof.Machine
end

