-- ==== Sys2Proof/Laws/Memory.lean ====
section
/-! SUPPORT. The laws of memory: read after write, and every operation keeps the canonical form. -/

namespace Sys2Proof.Machine

/-! ## Read after write (R61) -/

theorem read_cons (m : Memory) (a b : Nat) (v : Byte) (h : a = b → v = resetByte a → m.read b = v) :
    (Memory.cons a v m).read b = if b = a then v else m.read b := by
  unfold Memory.cons
  split
  · next hv =>
    split
    · next hb => exact h hb.symm hv
    · rfl
  · simp [Memory.read]

/-- An address below every listed one reads as the reset contents. -/
theorem read_of_lt_all (m : Memory) (a : Nat) (h : ∀ c ∈ m, a < c.1) : m.read a = resetByte a := by
  induction m with
  | nil => rfl
  | cons c m ih =>
    obtain ⟨b, w⟩ := c
    have hb : a < b := h (b, w) (by simp)
    rw [Memory.read, if_neg (by omega)]
    exact ih fun c hc => h c (List.mem_cons_of_mem _ hc)

theorem read_insert (m : Memory) (a b : Nat) (v : Byte)
    (hm : m.Pairwise fun c d => c.1 < d.1) :
    (m.insert a v).read b = if b = a then v else m.read b := by
  induction m with
  | nil =>
    exact read_cons [] a b v fun hb hv => by subst hb; simp [Memory.read, hv]
  | cons c m ih =>
    obtain ⟨k, w⟩ := c
    obtain ⟨hall, htail⟩ := List.pairwise_cons.mp hm
    unfold Memory.insert
    split
    · next hlt =>
      refine read_cons _ a b v fun hb hv => ?_
      subst hb
      rw [read_of_lt_all _ _ fun c hc => ?_, hv]
      rcases List.mem_cons.mp hc with rfl | hc
      · exact hlt
      · have : k < c.1 := hall c hc
        omega
    · split
      · next hnlt heq =>
        subst heq
        rw [read_cons m a b v fun hb hv => by
          subst hb
          rw [read_of_lt_all m a fun c hc => hall c hc, hv]]
        split
        · rfl
        · next hne => rw [Memory.read, if_neg hne]
      · next hnlt hne =>
        rw [Memory.read, ih htail]
        by_cases hbk : b = k
        · subst hbk; simp [Memory.read, Ne.symm hne]
        · simp [Memory.read, hbk]

/-- Read after write: the byte written where it was written, every other byte as before. -/
theorem read_write {m : Memory} (hm : m.wf) (a b : Nat) (v : Byte) :
    (m.write a v).read b = if b = a ∧ a < 0x1000 then v else m.read b := by
  unfold Memory.write
  split
  · next h => simp [read_insert m a b v hm.1, h]
  · next h => simp [h]

/-! ## The canonical form is kept -/

theorem mem_cons_mem {m : Memory} {a : Nat} {v : Byte} {c : Host.Cell} (h : c ∈ Memory.cons a v m) :
    (c = (a, v) ∧ v ≠ resetByte a) ∨ c ∈ m := by
  unfold Memory.cons at h
  split at h
  · exact .inr h
  · next hv =>
    rcases List.mem_cons.mp h with rfl | h
    · exact .inl ⟨rfl, hv⟩
    · exact .inr h

theorem mem_insert {m : Memory} {a : Nat} {v : Byte} {c : Host.Cell} (h : c ∈ m.insert a v) :
    (c = (a, v) ∧ v ≠ resetByte a) ∨ c ∈ m := by
  induction m with
  | nil => exact mem_cons_mem h
  | cons d m ih =>
    obtain ⟨k, w⟩ := d
    unfold Memory.insert at h
    split at h
    · exact mem_cons_mem h
    · split at h
      · rcases mem_cons_mem h with h | h
        · exact .inl h
        · exact .inr (List.mem_cons_of_mem _ h)
      · rcases List.mem_cons.mp h with rfl | h
        · exact .inr (by simp)
        · rcases ih h with h | h
          · exact .inl h
          · exact .inr (List.mem_cons_of_mem _ h)

theorem pairwise_cons_cell {m : Memory} {a : Nat} {v : Byte} (hm : m.Pairwise fun c d => c.1 < d.1)
    (h : ∀ c ∈ m, a < c.1) : (Memory.cons a v m).Pairwise fun c d => c.1 < d.1 := by
  unfold Memory.cons
  split
  · exact hm
  · exact List.pairwise_cons.mpr ⟨h, hm⟩

theorem pairwise_insert {m : Memory} (a : Nat) (v : Byte) (hm : m.Pairwise fun c d => c.1 < d.1) :
    (m.insert a v).Pairwise fun c d => c.1 < d.1 := by
  induction m with
  | nil => exact pairwise_cons_cell hm (by simp)
  | cons d m ih =>
    obtain ⟨k, w⟩ := d
    obtain ⟨hall, htail⟩ := List.pairwise_cons.mp hm
    unfold Memory.insert
    split
    · next hlt =>
      refine pairwise_cons_cell hm fun c hc => ?_
      rcases List.mem_cons.mp hc with rfl | hc
      · exact hlt
      · have : k < c.1 := hall c hc
        omega
    · split
      · next heq => exact pairwise_cons_cell htail fun c hc => heq ▸ hall c hc
      · next hnlt hne =>
        refine List.pairwise_cons.mpr ⟨fun c hc => ?_, ih htail⟩
        rcases mem_insert hc with ⟨rfl, -⟩ | hc
        · show k < a
          omega
        · exact hall c hc

/-- A write keeps the canonical form. -/
theorem write_wf {m : Memory} (hm : m.wf) (a : Nat) (v : Byte) : (m.write a v).wf := by
  unfold Memory.write
  split
  · next h =>
    refine ⟨pairwise_insert a v hm.1, fun c hc => ?_⟩
    rcases mem_insert hc with ⟨rfl, hv⟩ | hc
    · exact ⟨h, hv⟩
    · exact hm.2 c hc
  · exact hm

/-- A sequence of writes keeps the canonical form. -/
theorem writeBytes_wf {m : Memory} (hm : m.wf) (a : Nat) (bs : List Byte) : (m.writeBytes a bs).wf := by
  induction bs generalizing m a with
  | nil => exact hm
  | cons b bs ih => exact ih (write_wf hm a b) (a + 1)

/-- Read after a sequence of writes that fits in memory. -/
theorem read_writeBytes {m : Memory} (hm : m.wf) (a : Nat) (bs : List Byte) (b : Nat)
    (hfit : a + bs.length ≤ 0x1000) :
    (m.writeBytes a bs).read b = if a ≤ b ∧ b < a + bs.length then bs.getD (b - a) 0 else m.read b := by
  induction bs generalizing m a with
  | nil => simp [Memory.writeBytes]
  | cons c bs ih =>
    simp only [List.length_cons] at hfit
    rw [Memory.writeBytes, ih (write_wf hm a c) (a + 1) (by omega), read_write hm]
    simp only [List.length_cons]
    by_cases h1 : b = a
    · subst h1
      have : b < 0x1000 := by omega
      simp [this]
    · have hk : a + 1 ≤ b ↔ a ≤ b := by omega
      by_cases h2 : a ≤ b ∧ b < a + (bs.length + 1)
      · have hsub : b - a = (b - (a + 1)) + 1 := by omega
        rw [if_pos (by omega), if_pos h2, hsub]
        simp
      · rw [if_neg (by omega), if_neg h2, if_neg (by simp [h1])]

/-- Two canonical memories that read the same everywhere are the same list. -/
theorem wf_ext {m n : Memory} (hm : m.wf) (hn : n.wf) (h : ∀ a, m.read a = n.read a) : m = n := by
  induction m generalizing n with
  | nil =>
    cases n with
    | nil => rfl
    | cons c n =>
      obtain ⟨k, w⟩ := c
      have := h k
      simp only [Memory.read, if_true] at this
      exact absurd this.symm (hn.2 (k, w) (by simp)).2
  | cons c m ih =>
    obtain ⟨k, w⟩ := c
    obtain ⟨hmall, hmtail⟩ := List.pairwise_cons.mp hm.1
    cases n with
    | nil =>
      have := h k
      simp only [Memory.read, if_true] at this
      exact absurd this (hm.2 (k, w) (by simp)).2
    | cons d n =>
      obtain ⟨j, u⟩ := d
      obtain ⟨hnall, hntail⟩ := List.pairwise_cons.mp hn.1
      have hkj : k = j := by
        rcases Nat.lt_trichotomy k j with hlt | heq | hgt
        · have hk := h k
          have hnk : Memory.read ((j, u) :: n) k = resetByte k := read_of_lt_all _ _ fun c hc => by
            rcases List.mem_cons.mp hc with rfl | hc
            · exact hlt
            · have : j < c.1 := hnall c hc
              omega
          rw [hnk] at hk
          simp only [Memory.read, if_true] at hk
          exact absurd hk (hm.2 (k, w) (by simp)).2
        · exact heq
        · have hj := h j
          have hmj : Memory.read ((k, w) :: m) j = resetByte j := read_of_lt_all _ _ fun c hc => by
            rcases List.mem_cons.mp hc with rfl | hc
            · exact hgt
            · have : k < c.1 := hmall c hc
              omega
          rw [hmj] at hj
          simp only [Memory.read, if_true] at hj
          exact absurd hj.symm (hn.2 (j, u) (by simp)).2
      subst hkj
      have hw : w = u := by
        have := h k
        simpa [Memory.read] using this
      subst hw
      have htl : ∀ c ∈ m, c.1 < 0x1000 ∧ c.2 ≠ resetByte c.1 := fun c hc => hm.2 c (List.mem_cons_of_mem _ hc)
      have hnl : ∀ c ∈ n, c.1 < 0x1000 ∧ c.2 ≠ resetByte c.1 := fun c hc => hn.2 c (List.mem_cons_of_mem _ hc)
      rw [ih (n := n) ⟨hmtail, htl⟩ ⟨hntail, hnl⟩ fun a => ?_]
      by_cases ha : a = k
      · subst ha
        rw [read_of_lt_all m a fun c hc => hmall c hc, read_of_lt_all n a fun c hc => hnall c hc]
      · simpa [Memory.read, ha] using h a

theorem readBytes_length (m : Memory) (a n : Nat) : (m.readBytes a n).length = n := by
  simp [Memory.readBytes]

theorem readBytes_getD (m : Memory) (a n k : Nat) (h : k < n) : (m.readBytes a n).getD k 0 = m.read (a + k) := by
  simp [Memory.readBytes, List.getD, h]

end Sys2Proof.Machine
end

