-- ==== Sys2Proof/Laws/Draw.lean ====
section
/-! SUPPORT. The loops of Dxyn as one pass over a list of distinct pixels, and what such a pass does. -/

namespace Sys2Proof.Machine

/-- The pixel of a framebuffer. -/
def fbAt (fb : Framebuffer) (px : Fin 64) (py : Fin 32) : Bool := fb[px][py]

/-- `fb_set` changes one pixel (R222). -/
theorem fbAt_fbSet (fb : Framebuffer) (px qx : Fin 64) (py qy : Fin 32) (on : Bool) :
    fbAt (fbSet fb px py on) qx qy = if qx = px ∧ qy = py then on else fbAt fb qx qy := by
  unfold fbAt fbSet
  by_cases hx : px = qx
  · subst hx
    by_cases hy : py = qy
    · subst hy; simp
    · have : py.val ≠ qy.val := fun e => hy (Fin.ext e)
      simp [this, Ne.symm hy]
  · have : px.val ≠ qx.val := fun e => hx (Fin.ext e)
    simp [this, Ne.symm hx]

theorem fb_ext {f g : Framebuffer} (h : ∀ px py, fbAt f px py = fbAt g px py) : f = g := by
  apply Vector.ext
  intro i hi
  apply Vector.ext
  intro j hj
  exact h ⟨i, hi⟩ ⟨j, hj⟩

/-- One toggle per listed pixel, in order. -/
def toggleAll (ps : List (Nat × Nat)) (c : Canvas) : Canvas := ps.foldl (fun c p => c.toggle p.1 p.2) c

/-- The pixels of one row byte under a bit 1, for the column offsets `ks`. -/
def rowPixels (b : Byte) (vx py : Nat) (ks : List Nat) : List (Nat × Nat) :=
  (ks.filter fun k => b.getLsbD (7 - k)).map fun k => (vx + k, py)

/-- The pixels of a sprite under a bit 1, rows from `py` down. -/
def spritePixels (vx : Nat) : Nat → List Byte → List (Nat × Nat)
  | _, [] => []
  | py, b :: bs => rowPixels b vx py (List.range 8) ++ spritePixels vx (py + 1) bs

theorem drawRow_eq (b : Byte) (vx py : Nat) (ks : List Nat) (c : Canvas) :
    Canvas.drawRow b vx py ks c = toggleAll (rowPixels b vx py ks) c := by
  induction ks generalizing c with
  | nil => rfl
  | cons k ks ih =>
    rw [Canvas.drawRow, ih]
    cases h : b.getLsbD (7 - k) <;> simp [rowPixels, h, toggleAll]

theorem drawRows_eq (vx py : Nat) (bs : List Byte) (c : Canvas) :
    Canvas.drawRows vx py bs c = toggleAll (spritePixels vx py bs) c := by
  induction bs generalizing c py with
  | nil => rfl
  | cons b bs ih =>
    rw [Canvas.drawRows, ih, drawRow_eq]
    simp [spritePixels, toggleAll]

theorem mem_rowPixels (b : Byte) (vx py px q : Nat) :
    (px, q) ∈ rowPixels b vx py (List.range 8) ↔
      vx ≤ px ∧ px < vx + 8 ∧ q = py ∧ b.getLsbD (7 - (px - vx)) = true := by
  simp only [rowPixels, List.mem_map, List.mem_filter, List.mem_range, Prod.mk.injEq]
  constructor
  · rintro ⟨k, ⟨hk, hb⟩, rfl, rfl⟩
    exact ⟨by omega, by omega, rfl, by simpa using hb⟩
  · rintro ⟨h1, h2, rfl, hb⟩
    exact ⟨px - vx, ⟨by omega, hb⟩, by omega, rfl⟩

theorem mem_spritePixels (vx py : Nat) (bs : List Byte) (px q : Nat) :
    (px, q) ∈ spritePixels vx py bs ↔
      vx ≤ px ∧ px < vx + 8 ∧ py ≤ q ∧ q < py + bs.length ∧ (bs.getD (q - py) 0).getLsbD (7 - (px - vx)) = true := by
  induction bs generalizing py with
  | nil => simp [spritePixels]
  | cons b bs ih =>
    rw [spritePixels, List.mem_append, mem_rowPixels, ih]
    by_cases hq : q = py
    · subst hq
      have : ¬(q + 1 ≤ q) := by omega
      simp [this]
    · constructor
      · rintro (⟨-, -, h, -⟩ | ⟨h1, h2, h3, h4, h5⟩)
        · exact absurd h hq
        · refine ⟨h1, h2, by omega, by simp; omega, ?_⟩
          rw [show q - py = (q - (py + 1)) + 1 by omega]
          simpa using h5
      · rintro ⟨h1, h2, h3, h4, h5⟩
        refine .inr ⟨h1, h2, by omega, by simp at h4; omega, ?_⟩
        rw [show q - py = (q - (py + 1)) + 1 by omega] at h5
        simpa using h5

theorem nodup_rowPixels (b : Byte) (vx py : Nat) : (rowPixels b vx py (List.range 8)).Nodup := by
  refine List.Nodup.map (fun i j h => ?_) (List.Nodup.filter _ List.nodup_range)
  simpa using h

theorem nodup_spritePixels (vx py : Nat) (bs : List Byte) : (spritePixels vx py bs).Nodup := by
  induction bs generalizing py with
  | nil => simp [spritePixels]
  | cons b bs ih =>
    refine List.nodup_append.mpr ⟨nodup_rowPixels b vx py, ih (py + 1), ?_⟩
    rintro ⟨px, q⟩ h1 ⟨px', q'⟩ h2 heq
    cases heq
    rw [mem_rowPixels] at h1
    rw [mem_spritePixels] at h2
    omega

/-- What one toggle does. -/
theorem toggle_spec (c : Canvas) (px py : Nat) :
    (∀ qx qy, fbAt (c.toggle px py).fb qx qy =
      Bool.xor (fbAt c.fb qx qy) (decide (qx.val = px ∧ qy.val = py))) ∧
    ((c.toggle px py).collision = true ↔
      c.collision = true ∨ ∃ qx qy, fbAt c.fb qx qy = true ∧ qx.val = px ∧ qy.val = py) := by
  unfold Canvas.toggle
  split
  · next h =>
    constructor
    · intro qx qy
      rw [fbAt_fbSet]
      by_cases hq : qx.val = px ∧ qy.val = py
      · obtain ⟨rfl, rfl⟩ := hq
        simp [fbAt]
      · have : ¬(qx = ⟨px, h.1⟩ ∧ qy = ⟨py, h.2⟩) := fun e => hq ⟨congrArg Fin.val e.1, congrArg Fin.val e.2⟩
        rw [if_neg this]
        simp [hq]
    · simp only [Bool.or_eq_true]
      refine or_congr_right ⟨fun ho => ⟨⟨px, h.1⟩, ⟨py, h.2⟩, ho, rfl, rfl⟩, ?_⟩
      rintro ⟨qx, qy, ho, rfl, rfl⟩
      exact ho
  · next h =>
    constructor
    · intro qx qy
      have : ¬(qx.val = px ∧ qy.val = py) := fun e => h ⟨e.1 ▸ qx.isLt, e.2 ▸ qy.isLt⟩
      simp [this]
    · refine ⟨.inl, ?_⟩
      rintro (hc | ⟨qx, qy, -, rfl, rfl⟩)
      · exact hc
      · exact absurd ⟨qx.isLt, qy.isLt⟩ h

/-- What a pass over distinct pixels does: each on-screen one is toggled, and a collision is one that was on. -/
theorem toggleAll_spec (ps : List (Nat × Nat)) (hn : ps.Nodup) (c : Canvas) :
    (∀ qx qy, fbAt (toggleAll ps c).fb qx qy =
      Bool.xor (fbAt c.fb qx qy) (decide ((qx.val, qy.val) ∈ ps))) ∧
    ((toggleAll ps c).collision = true ↔
      c.collision = true ∨ ∃ qx qy, fbAt c.fb qx qy = true ∧ ((qx : Fin 64).val, (qy : Fin 32).val) ∈ ps) := by
  induction ps generalizing c with
  | nil => simp [toggleAll]
  | cons p ps ih =>
    obtain ⟨hp, hps⟩ := List.nodup_cons.mp hn
    obtain ⟨px, py⟩ := p
    obtain ⟨ht, htc⟩ := toggle_spec c px py
    obtain ⟨hr, hrc⟩ := ih hps (c.toggle px py)
    have hfold : toggleAll ((px, py) :: ps) c = toggleAll ps (c.toggle px py) := rfl
    rw [hfold]
    constructor
    · intro qx qy
      rw [hr, ht]
      by_cases hq : qx.val = px ∧ qy.val = py
      · obtain ⟨rfl, rfl⟩ := hq
        simp [hp]
      · have : ((qx.val, qy.val) = (px, py)) = False := by simpa using hq
        simp [hq]
    · rw [hrc, htc, or_assoc]
      refine or_congr_right ?_
      constructor
      · rintro (⟨qx, qy, ho, rfl, rfl⟩ | ⟨qx, qy, ho, hm⟩)
        · exact ⟨qx, qy, ho, by simp⟩
        · refine ⟨qx, qy, ?_, List.mem_cons_of_mem _ hm⟩
          rw [ht] at ho
          have : ¬(qx.val = px ∧ qy.val = py) := fun e => hp (by rw [← e.1, ← e.2]; exact hm)
          simpa [this] using ho
      · rintro ⟨qx, qy, ho, hm⟩
        rcases List.mem_cons.mp hm with e | hm
        · cases e
          exact .inl ⟨qx, qy, ho, rfl, rfl⟩
        · refine .inr ⟨qx, qy, ?_, hm⟩
          rw [ht]
          have : ¬(qx.val = px ∧ qy.val = py) := fun e => hp (by rw [← e.1, ← e.2]; exact hm)
          simpa [this] using ho

/-- The notification of one pixel of a pass that starts from `fb`: none when it is off the screen (R230). -/
def pixelNote (fb : Framebuffer) (p : Nat × Nat) : List Notification :=
  if h : p.1 < 64 ∧ p.2 < 32 then [.setPixel ⟨p.1, h.1⟩ ⟨p.2, h.2⟩ (!fbAt fb ⟨p.1, h.1⟩ ⟨p.2, h.2⟩)] else []

theorem toggle_notes (c : Canvas) (px py : Nat) : (c.toggle px py).notes = c.notes ++ pixelNote c.fb (px, py) := by
  unfold Canvas.toggle pixelNote
  split <;> simp [*, fbAt]

/-- The notifications of a pass over distinct pixels, in order, with values taken from the framebuffer it started from. -/
theorem toggleAll_notes (ps : List (Nat × Nat)) (hn : ps.Nodup) (c : Canvas) :
    (toggleAll ps c).notes = c.notes ++ ps.flatMap (pixelNote c.fb) := by
  induction ps generalizing c with
  | nil => simp [toggleAll]
  | cons p ps ih =>
    obtain ⟨hp, hps⟩ := List.nodup_cons.mp hn
    obtain ⟨px, py⟩ := p
    have hfold : toggleAll ((px, py) :: ps) c = toggleAll ps (c.toggle px py) := rfl
    rw [hfold, ih hps, toggle_notes, List.flatMap_cons, List.append_assoc]
    congr 2
    refine List.flatMap_congr fun q hq => ?_
    obtain ⟨qx, qy⟩ := q
    unfold pixelNote
    split
    · next h =>
      have hne : ¬(qx = px ∧ qy = py) := fun e => hp (by rw [← e.1, ← e.2]; exact hq)
      rw [(toggle_spec c px py).1]
      simp [hne]
    · rfl

/-- The whole of `drawSprite` as a pass over the sprite's pixels. -/
theorem drawSprite_eq (x y : Reg) (n : BitVec 4) (s : State) :
    drawSprite x y n s =
      toggleAll (spritePixels (s.readV x).toNat (s.readV y).toNat (s.mem.readBytes (s.indexAddr 0) n.toNat))
        ⟨s.fb, false, []⟩ := drawRows_eq _ _ _ _

/-- The pixels of a sprite are those under a sprite bit 1 (R225, R226). -/
theorem mem_spritePixels_iff_spriteBit (x y : Reg) (n : BitVec 4) (s : State) (px py : Nat) :
    (px, py) ∈ spritePixels (s.readV x).toNat (s.readV y).toNat (s.mem.readBytes (s.indexAddr 0) n.toNat) ↔
      spriteBit s x y n px py = true := by
  rw [mem_spritePixels, readBytes_length]
  unfold spriteBit
  by_cases h : (s.readV y).toNat ≤ py ∧ py < (s.readV y).toNat + n.toNat
  · rw [readBytes_getD _ _ _ _ (by omega)]
    simp [State.readMem, State.indexAddr, h, and_assoc]
  · simp only [Bool.and_eq_true, decide_eq_true_eq]
    tauto

/-- What drawing a sprite does to each pixel, and when it collides. -/
theorem drawSprite_spec (x y : Reg) (n : BitVec 4) (s : State) :
    (∀ px py, fbAt (drawSprite x y n s).fb px py = Bool.xor (s.fbRead px py) (spriteBit s x y n px py)) ∧
    ((drawSprite x y n s).collision = true ↔
      ∃ (px : Fin 64) (py : Fin 32), s.fbRead px py = true ∧ spriteBit s x y n px py = true) := by
  have h := toggleAll_spec _ (nodup_spritePixels (s.readV x).toNat (s.readV y).toNat
    (s.mem.readBytes (s.indexAddr 0) n.toNat)) ⟨s.fb, false, []⟩
  rw [← drawSprite_eq] at h
  constructor
  · intro px py
    rw [h.1]
    congr 1
    rw [← Bool.decide_coe (spriteBit s x y n px py)]
    exact decide_eq_decide.mpr (mem_spritePixels_iff_spriteBit x y n s px py)
  · rw [h.2]
    simp only [Bool.false_eq_true, false_or]
    exact exists_congr fun px => exists_congr fun py =>
      and_congr_right fun _ => mem_spritePixels_iff_spriteBit x y n s px py

end Sys2Proof.Machine
end

