-- ==== Sys2Proof/Laws/Exec.lean ====
section
/-! SUPPORT. One equation per instruction: its execution is the commit of its outcome. The provers rewrite with these and
never unfold `exec` or a meaning. -/

namespace Sys2Proof.Machine

theorem exec_cls (s : State) :
    exec .cls s =
      commit s (nextInstr s s.fbClear) := rfl

theorem exec_ret (s : State) :
    exec .ret s =
      commit s
        (match s.pop with
         | none => .fault .stackUnderflow
         | some (a, t) => .next (a.toNat + 2) t) := rfl

theorem exec_jp (nnn : BitVec 12) (s : State) :
    exec (.jp nnn) s =
      commit s (.next (zext16 nnn).toNat s) := rfl

theorem exec_call (nnn : BitVec 12) (s : State) :
    exec (.call nnn) s =
      commit s
        (match s.push s.pc with
         | none => .fault .stackOverflow
         | some t => .next (zext16 nnn).toNat t) := rfl

theorem exec_seVxKk (x : Reg) (kk : Byte) (s : State) :
    exec (.seVxKk x kk) s =
      commit s (skipIf s (s.readV x == kk)) := rfl

theorem exec_sneVxKk (x : Reg) (kk : Byte) (s : State) :
    exec (.sneVxKk x kk) s =
      commit s (skipIf s (s.readV x != kk)) := rfl

theorem exec_seVxVy (x y : Reg) (s : State) :
    exec (.seVxVy x y) s =
      commit s (skipIf s (s.readV x == s.readV y)) := rfl

theorem exec_ldVxKk (x : Reg) (kk : Byte) (s : State) :
    exec (.ldVxKk x kk) s =
      commit s (nextInstr s (s.writeV x kk)) := rfl

theorem exec_addVxKk (x : Reg) (kk : Byte) (s : State) :
    exec (.addVxKk x kk) s =
      commit s (aluInstr .addnf x kk s) := rfl

theorem exec_ldVxVy (x y : Reg) (s : State) :
    exec (.ldVxVy x y) s =
      commit s (aluInstr .pass x (s.readV y) s) := rfl

theorem exec_orVxVy (x y : Reg) (s : State) :
    exec (.orVxVy x y) s =
      commit s (aluInstr .or x (s.readV y) s) := rfl

theorem exec_andVxVy (x y : Reg) (s : State) :
    exec (.andVxVy x y) s =
      commit s (aluInstr .and x (s.readV y) s) := rfl

theorem exec_xorVxVy (x y : Reg) (s : State) :
    exec (.xorVxVy x y) s =
      commit s (aluInstr .xor x (s.readV y) s) := rfl

theorem exec_addVxVy (x y : Reg) (s : State) :
    exec (.addVxVy x y) s =
      commit s (aluInstr .add x (s.readV y) s) := rfl

theorem exec_subVxVy (x y : Reg) (s : State) :
    exec (.subVxVy x y) s =
      commit s (aluInstr .sub x (s.readV y) s) := rfl

theorem exec_shrVx (x y : Reg) (s : State) :
    exec (.shrVx x y) s =
      commit s (aluInstr .shr x (s.readV y) s) := rfl

theorem exec_subnVxVy (x y : Reg) (s : State) :
    exec (.subnVxVy x y) s =
      commit s (aluInstr .subn x (s.readV y) s) := rfl

theorem exec_shlVx (x y : Reg) (s : State) :
    exec (.shlVx x y) s =
      commit s (aluInstr .shl x (s.readV y) s) := rfl

theorem exec_sneVxVy (x y : Reg) (s : State) :
    exec (.sneVxVy x y) s =
      commit s (skipIf s (s.readV x != s.readV y)) := rfl

theorem exec_ldINnn (nnn : BitVec 12) (s : State) :
    exec (.ldINnn nnn) s =
      commit s (nextInstr s (s.writeI (zext16 nnn))) := rfl

theorem exec_drw (x y : Reg) (n : BitVec 4) (s : State) :
    exec (.drw x y n) s =
      commit s
        (afterRangeCheck (s.indexAddr 0) n.toNat
          (nextInstr s
            ((s.setFb (drawSprite x y n s).fb).writeV VF (flagByte (drawSprite x y n s).collision)))) := rfl

theorem exec_ldVxDt (x : Reg) (s : State) :
    exec (.ldVxDt x) s =
      commit s (nextInstr s (s.writeV x s.dt)) := rfl

theorem exec_ldVxK (x : Reg) (s : State) :
    exec (.ldVxK x) s =
      commit s (.await x) := rfl

theorem exec_ldDtVx (x : Reg) (s : State) :
    exec (.ldDtVx x) s =
      commit s (nextInstr s (s.writeDt (s.readV x))) := rfl

theorem exec_ldStVx (x : Reg) (s : State) :
    exec (.ldStVx x) s =
      commit s (nextInstr s (s.writeSt (s.readV x))) := rfl

theorem exec_ldFVx (x : Reg) (s : State) :
    exec (.ldFVx x) s =
      commit s (nextInstr s (s.writeI (glyphAddr (s.readV x)))) := rfl

theorem exec_ldBVx (x : Reg) (s : State) :
    exec (.ldBVx x) s =
      commit s
        (afterRangeCheck (s.indexAddr 0) 3
          (nextInstr s (s.storeBytes (s.indexAddr 0) (bcdDigits (s.readV x))))) := rfl

theorem exec_ldMemVx (x : Reg) (s : State) :
    exec (.ldMemVx x) s =
      commit s
        (afterRangeCheck (s.indexAddr 0) (x.val + 1)
          (nextInstr s (s.storeBytes (s.indexAddr 0) (s.regBlock x)))) := rfl

theorem exec_ldVxMem (x : Reg) (s : State) :
    exec (.ldVxMem x) s =
      commit s
        (afterRangeCheck (s.indexAddr 0) (x.val + 1)
          (nextInstr s (s.loadRegs (regsUpTo x)))) := rfl

end Sys2Proof.Machine
end

