-- ==== Sys2Proof/Laws/PerInstr.lean ====
section
/-! SUPPORT. Statements for all instructions, one lemma per constructor. Family `EncodeRow`: the word of an instruction
matches the row of rule R97 for its operation. -/

namespace Sys2Proof.Laws.EncodeRow

/-- The word of `i` matches the row of its operation (R97). -/
def Statement (i : Instr) : Prop := ∃ row ∈ opcodeRows, row.op = i.op ∧ encode i &&& row.mask = row.pattern

theorem cls : Statement .cls :=
  ⟨⟨.cls, 0x00E0, 0xFFFF⟩, by decide, rfl, rfl⟩

theorem ret : Statement .ret :=
  ⟨⟨.ret, 0x00EE, 0xFFFF⟩, by decide, rfl, rfl⟩

theorem jp (nnn : BitVec 12) : Statement (.jp nnn) :=
  ⟨⟨.jp, 0x1000, 0xF000⟩, by decide, rfl, by
    rw [encode, formNnn_eq]; exact (wordOf_and_F000 _ _ _ _).trans rfl⟩

theorem call (nnn : BitVec 12) : Statement (.call nnn) :=
  ⟨⟨.call, 0x2000, 0xF000⟩, by decide, rfl, by
    rw [encode, formNnn_eq]; exact (wordOf_and_F000 _ _ _ _).trans rfl⟩

theorem seVxKk (x : Reg) (kk : Byte) : Statement (.seVxKk x kk) :=
  ⟨⟨.seVxKk, 0x3000, 0xF000⟩, by decide, rfl, by
    rw [encode, formXkk_eq]; exact (wordOf_and_F000 _ _ _ _).trans rfl⟩

theorem sneVxKk (x : Reg) (kk : Byte) : Statement (.sneVxKk x kk) :=
  ⟨⟨.sneVxKk, 0x4000, 0xF000⟩, by decide, rfl, by
    rw [encode, formXkk_eq]; exact (wordOf_and_F000 _ _ _ _).trans rfl⟩

theorem seVxVy (x y : Reg) : Statement (.seVxVy x y) :=
  ⟨⟨.seVxVy, 0x5000, 0xF00F⟩, by decide, rfl, by
    rw [encode, formXyn_eq]; exact (wordOf_and_F00F _ _ _ _).trans rfl⟩

theorem ldVxKk (x : Reg) (kk : Byte) : Statement (.ldVxKk x kk) :=
  ⟨⟨.ldVxKk, 0x6000, 0xF000⟩, by decide, rfl, by
    rw [encode, formXkk_eq]; exact (wordOf_and_F000 _ _ _ _).trans rfl⟩

theorem addVxKk (x : Reg) (kk : Byte) : Statement (.addVxKk x kk) :=
  ⟨⟨.addVxKk, 0x7000, 0xF000⟩, by decide, rfl, by
    rw [encode, formXkk_eq]; exact (wordOf_and_F000 _ _ _ _).trans rfl⟩

theorem ldVxVy (x y : Reg) : Statement (.ldVxVy x y) :=
  ⟨⟨.ldVxVy, 0x8000, 0xF00F⟩, by decide, rfl, by
    rw [encode, formXyn_eq]; exact (wordOf_and_F00F _ _ _ _).trans rfl⟩

theorem orVxVy (x y : Reg) : Statement (.orVxVy x y) :=
  ⟨⟨.orVxVy, 0x8001, 0xF00F⟩, by decide, rfl, by
    rw [encode, formXyn_eq]; exact (wordOf_and_F00F _ _ _ _).trans rfl⟩

theorem andVxVy (x y : Reg) : Statement (.andVxVy x y) :=
  ⟨⟨.andVxVy, 0x8002, 0xF00F⟩, by decide, rfl, by
    rw [encode, formXyn_eq]; exact (wordOf_and_F00F _ _ _ _).trans rfl⟩

theorem xorVxVy (x y : Reg) : Statement (.xorVxVy x y) :=
  ⟨⟨.xorVxVy, 0x8003, 0xF00F⟩, by decide, rfl, by
    rw [encode, formXyn_eq]; exact (wordOf_and_F00F _ _ _ _).trans rfl⟩

theorem addVxVy (x y : Reg) : Statement (.addVxVy x y) :=
  ⟨⟨.addVxVy, 0x8004, 0xF00F⟩, by decide, rfl, by
    rw [encode, formXyn_eq]; exact (wordOf_and_F00F _ _ _ _).trans rfl⟩

theorem subVxVy (x y : Reg) : Statement (.subVxVy x y) :=
  ⟨⟨.subVxVy, 0x8005, 0xF00F⟩, by decide, rfl, by
    rw [encode, formXyn_eq]; exact (wordOf_and_F00F _ _ _ _).trans rfl⟩

theorem shrVx (x y : Reg) : Statement (.shrVx x y) :=
  ⟨⟨.shrVx, 0x8006, 0xF00F⟩, by decide, rfl, by
    rw [encode, formXyn_eq]; exact (wordOf_and_F00F _ _ _ _).trans rfl⟩

theorem subnVxVy (x y : Reg) : Statement (.subnVxVy x y) :=
  ⟨⟨.subnVxVy, 0x8007, 0xF00F⟩, by decide, rfl, by
    rw [encode, formXyn_eq]; exact (wordOf_and_F00F _ _ _ _).trans rfl⟩

theorem shlVx (x y : Reg) : Statement (.shlVx x y) :=
  ⟨⟨.shlVx, 0x800E, 0xF00F⟩, by decide, rfl, by
    rw [encode, formXyn_eq]; exact (wordOf_and_F00F _ _ _ _).trans rfl⟩

theorem sneVxVy (x y : Reg) : Statement (.sneVxVy x y) :=
  ⟨⟨.sneVxVy, 0x9000, 0xF00F⟩, by decide, rfl, by
    rw [encode, formXyn_eq]; exact (wordOf_and_F00F _ _ _ _).trans rfl⟩

theorem ldINnn (nnn : BitVec 12) : Statement (.ldINnn nnn) :=
  ⟨⟨.ldINnn, 0xA000, 0xF000⟩, by decide, rfl, by
    rw [encode, formNnn_eq]; exact (wordOf_and_F000 _ _ _ _).trans rfl⟩

theorem drw (x y : Reg) (n : BitVec 4) : Statement (.drw x y n) :=
  ⟨⟨.drw, 0xD000, 0xF000⟩, by decide, rfl, by
    rw [encode, formXyn_eq]; exact (wordOf_and_F000 _ _ _ _).trans rfl⟩

theorem ldVxDt (x : Reg) : Statement (.ldVxDt x) :=
  ⟨⟨.ldVxDt, 0xF007, 0xF0FF⟩, by decide, rfl, by
    rw [encode, formXkk_eq]; exact (wordOf_and_F0FF _ _ _ _).trans rfl⟩

theorem ldVxK (x : Reg) : Statement (.ldVxK x) :=
  ⟨⟨.ldVxK, 0xF00A, 0xF0FF⟩, by decide, rfl, by
    rw [encode, formXkk_eq]; exact (wordOf_and_F0FF _ _ _ _).trans rfl⟩

theorem ldDtVx (x : Reg) : Statement (.ldDtVx x) :=
  ⟨⟨.ldDtVx, 0xF015, 0xF0FF⟩, by decide, rfl, by
    rw [encode, formXkk_eq]; exact (wordOf_and_F0FF _ _ _ _).trans rfl⟩

theorem ldStVx (x : Reg) : Statement (.ldStVx x) :=
  ⟨⟨.ldStVx, 0xF018, 0xF0FF⟩, by decide, rfl, by
    rw [encode, formXkk_eq]; exact (wordOf_and_F0FF _ _ _ _).trans rfl⟩

theorem ldFVx (x : Reg) : Statement (.ldFVx x) :=
  ⟨⟨.ldFVx, 0xF029, 0xF0FF⟩, by decide, rfl, by
    rw [encode, formXkk_eq]; exact (wordOf_and_F0FF _ _ _ _).trans rfl⟩

theorem ldBVx (x : Reg) : Statement (.ldBVx x) :=
  ⟨⟨.ldBVx, 0xF033, 0xF0FF⟩, by decide, rfl, by
    rw [encode, formXkk_eq]; exact (wordOf_and_F0FF _ _ _ _).trans rfl⟩

theorem ldMemVx (x : Reg) : Statement (.ldMemVx x) :=
  ⟨⟨.ldMemVx, 0xF055, 0xF0FF⟩, by decide, rfl, by
    rw [encode, formXkk_eq]; exact (wordOf_and_F0FF _ _ _ _).trans rfl⟩

theorem ldVxMem (x : Reg) : Statement (.ldVxMem x) :=
  ⟨⟨.ldVxMem, 0xF065, 0xF0FF⟩, by decide, rfl, by
    rw [encode, formXkk_eq]; exact (wordOf_and_F0FF _ _ _ _).trans rfl⟩

end Sys2Proof.Laws.EncodeRow
end

