-- ==== Sys2Proof/Laws/Transfer.lean ====
section
/-! SUPPORT. The register block and the byte sequences of Fx33, Fx55 and Fx65: what the loops read and write. -/

namespace Sys2Proof.Machine

theorem regsUpTo_eq_take (x : Reg) : regsUpTo x = (List.finRange 16).take (x.val + 1) := by
  revert x; decide

theorem mem_regsUpTo (x k : Reg) : k ∈ regsUpTo x ↔ k ≤ x := by
  simp [regsUpTo]

theorem regBlock_length (s : State) (x : Reg) : (s.regBlock x).length = x.val + 1 := by
  simp [State.regBlock, regsUpTo_eq_take]

theorem regBlock_getD (s : State) (x k : Reg) (h : k ≤ x) : (s.regBlock x).getD k.val 0 = s.readV k := by
  have hk : k.val < x.val + 1 := by have := Fin.le_def.mp h; omega
  simp [State.regBlock, regsUpTo_eq_take, List.getD, hk]

/-- `V[k] <- M[I + k]` for the registers of the list, and nothing else (R204). -/
theorem loadRegs_spec (s : State) (l : List Reg) :
    (∀ k, (s.loadRegs l).readV k = if k ∈ l then s.readMem (s.i.toNat + k.val) else s.readV k) ∧
    s.loadRegs l = { s with v := (s.loadRegs l).v } := by
  induction l generalizing s with
  | nil => exact ⟨fun k => by simp [State.loadRegs], rfl⟩
  | cons j l ih =>
    obtain ⟨hv, heq⟩ := ih (s.writeV j (s.readMem (s.indexAddr j.val)))
    refine ⟨fun k => ?_, heq⟩
    have hm (a : Nat) : (s.writeV j (s.readMem (s.indexAddr j.val))).readMem a = s.readMem a := rfl
    rw [State.loadRegs, hv k, hm, readV_writeV, writeV_i]
    by_cases hk : k ∈ l
    · simp [hk]
    · by_cases hj : k = j
      · subst hj; simp [State.indexAddr]
      · simp [hk, hj]

/-- The bytes stored are read back where they were stored, and every other byte reads as before. -/
theorem readMem_storeBytes {s : State} (hm : s.mem.wf) (a : Nat) (bs : List Byte) (b : Nat)
    (hfit : a + bs.length ≤ 0x1000) :
    (s.storeBytes a bs).readMem b = if a ≤ b ∧ b < a + bs.length then bs.getD (b - a) 0 else s.readMem b :=
  read_writeBytes hm a bs b hfit

theorem storeBytes_frame (s : State) (a : Nat) (bs : List Byte) : Frame [.mem] s (s.storeBytes a bs) := by
  refine ⟨fun p hp => ?_, rfl⟩
  cases p <;> simp_all [Unchanged, State.readV, State.resumeAt, State.stackEntry, State.fbRead]

theorem bcdDigits_toNat (b : Byte) (k : Nat) :
    ((bcdDigits b).getD k 0).toNat =
      if k = 0 then b.toNat / 100 else if k = 1 then b.toNat / 10 % 10 else if k = 2 then b.toNat % 10 else 0 := by
  have := b.isLt
  match k with
  | 0 => simp [bcdDigits]; omega
  | 1 => simp [bcdDigits]; omega
  | 2 => simp [bcdDigits]; omega
  | k + 3 => simp [bcdDigits]

theorem glyphAddr_toNat (b : Byte) : (glyphAddr b).toNat = b.toNat * 5 := by
  have := b.isLt
  simp [glyphAddr]; omega

end Sys2Proof.Machine
end

