-- ==== Sys2Proof/Laws/Step.lean ====
section
/-! SUPPORT. What any instruction and any step can do: commit one outcome, whose staged writes touch neither `RS` nor
the parameters. And how frames compose. -/

namespace Sys2Proof.Machine

/-! ## Frames -/

theorem frame_refl (changed : List Part) (s : State) : Frame changed s s :=
  ⟨fun p _ => by cases p <;> simp [Unchanged], rfl⟩

theorem frame_mono {c d : List Part} {s t : State} (h : Frame c s t) (hs : ∀ p, p ∈ c → p ∈ d) : Frame d s t :=
  ⟨fun p hp => h.1 p fun hc => hp (hs p hc), h.2⟩

theorem frame_trans {c : List Part} {s t u : State} (h : Frame c s t) (g : Frame c t u) : Frame c s u := by
  refine ⟨fun p hp => ?_, g.2.trans h.2⟩
  have a := h.1 p hp
  have b := g.1 p hp
  cases p <;> simp_all [Unchanged]

/-! ## One instruction -/

/-- The staged writes of an outcome keep the run state and the parameters. -/
def Result.KeepsRun (s : State) : Result → Prop
  | .next _ u => u.rs = s.rs ∧ u.params = s.params
  | .await _ => True
  | .fault _ => True

theorem keepsRun_skipIf (s : State) (b : Bool) : (skipIf s b).KeepsRun s := by cases b <;> exact ⟨rfl, rfl⟩

theorem keepsRun_afterRangeCheck {s : State} {r : Result} (a n : Nat) (h : r.KeepsRun s) :
    (afterRangeCheck a n r).KeepsRun s := by
  unfold afterRangeCheck
  split
  · trivial
  · exact h

theorem keepsRun_aluInstr (fn : AluFn) (x : Reg) (b : Byte) (s : State) : (aluInstr fn x b s).KeepsRun s := by
  unfold aluInstr nextInstr
  rw [writeAlu_eq]
  exact ⟨rfl, rfl⟩

/-- An instruction commits one outcome, whose staged writes keep the run state and the parameters. -/
theorem exec_commit (i : Instr) (s : State) : ∃ r, exec i s = commit s r ∧ r.KeepsRun s := by
  cases i
  case ret =>
    rw [exec_ret]
    refine ⟨_, rfl, ?_⟩
    cases h : s.pop with
    | none => trivial
    | some p =>
      obtain ⟨a, t⟩ := p
      have ht := (pop_some h).2.2.2
      exact ⟨by rw [ht], by rw [ht]⟩
  case call nnn =>
    rw [exec_call]
    refine ⟨_, rfl, ?_⟩
    cases h : s.push s.pc with
    | none => trivial
    | some t =>
      have ht := (push_some h).2.2.2
      exact ⟨by rw [ht], by rw [ht]⟩
  case ldVxMem x =>
    refine ⟨_, exec_ldVxMem x s, keepsRun_afterRangeCheck _ _ ?_⟩
    unfold nextInstr
    rw [(loadRegs_spec s _).2]
    exact ⟨rfl, rfl⟩
  case ldBVx x => exact ⟨_, exec_ldBVx x s, keepsRun_afterRangeCheck _ _ ⟨rfl, rfl⟩⟩
  case ldMemVx x => exact ⟨_, exec_ldMemVx x s, keepsRun_afterRangeCheck _ _ ⟨rfl, rfl⟩⟩
  case drw x y n => exact ⟨_, exec_drw x y n s, keepsRun_afterRangeCheck _ _ ⟨rfl, rfl⟩⟩
  case ldVxK x => exact ⟨_, exec_ldVxK x s, trivial⟩
  case seVxKk x kk => exact ⟨_, exec_seVxKk x kk s, keepsRun_skipIf _ _⟩
  case sneVxKk x kk => exact ⟨_, exec_sneVxKk x kk s, keepsRun_skipIf _ _⟩
  case seVxVy x y => exact ⟨_, exec_seVxVy x y s, keepsRun_skipIf _ _⟩
  case sneVxVy x y => exact ⟨_, exec_sneVxVy x y s, keepsRun_skipIf _ _⟩
  case addVxKk x kk => exact ⟨_, exec_addVxKk x kk s, keepsRun_aluInstr _ _ _ _⟩
  case ldVxVy x y => exact ⟨_, exec_ldVxVy x y s, keepsRun_aluInstr _ _ _ _⟩
  case orVxVy x y => exact ⟨_, exec_orVxVy x y s, keepsRun_aluInstr _ _ _ _⟩
  case andVxVy x y => exact ⟨_, exec_andVxVy x y s, keepsRun_aluInstr _ _ _ _⟩
  case xorVxVy x y => exact ⟨_, exec_xorVxVy x y s, keepsRun_aluInstr _ _ _ _⟩
  case addVxVy x y => exact ⟨_, exec_addVxVy x y s, keepsRun_aluInstr _ _ _ _⟩
  case subVxVy x y => exact ⟨_, exec_subVxVy x y s, keepsRun_aluInstr _ _ _ _⟩
  case shrVx x y => exact ⟨_, exec_shrVx x y s, keepsRun_aluInstr _ _ _ _⟩
  case subnVxVy x y => exact ⟨_, exec_subnVxVy x y s, keepsRun_aluInstr _ _ _ _⟩
  case shlVx x y => exact ⟨_, exec_shlVx x y s, keepsRun_aluInstr _ _ _ _⟩
  case cls => exact ⟨_, exec_cls s, rfl, rfl⟩
  case jp nnn => exact ⟨_, exec_jp nnn s, rfl, rfl⟩
  case ldVxKk x kk => exact ⟨_, exec_ldVxKk x kk s, rfl, rfl⟩
  case ldINnn nnn => exact ⟨_, exec_ldINnn nnn s, rfl, rfl⟩
  case ldVxDt x => exact ⟨_, exec_ldVxDt x s, rfl, rfl⟩
  case ldDtVx x => exact ⟨_, exec_ldDtVx x s, rfl, rfl⟩
  case ldStVx x => exact ⟨_, exec_ldStVx x s, rfl, rfl⟩
  case ldFVx x => exact ⟨_, exec_ldFVx x s, rfl, rfl⟩

/-! ## One step (R123) -/

/-- A step in `Running`: the fault of the fetch, an UNKNOWN word, or the instruction fetched. -/
theorem step_running_cases {s : State} (hr : s.rs = .running) :
    (0xFFE < s.pcNat ∧ step s = .next (haltedWith s (firstBad s.pcNat))) ∨
    (∃ w, fetch s = .ok w ∧ decodeWord w = none ∧ step s = .next (s.advance (s.pcNat + 2))) ∨
    ∃ w i, fetch s = .ok w ∧ decodeWord w = some i ∧ step s = exec i s := by
  unfold step
  rw [hr]
  by_cases hp : s.pcNat ≤ 0xFFE
  · simp only [fetch_ok hp]
    cases hd : decodeWord (wordOfBytes (s.readMem s.pcNat) (s.readMem (s.pcNat + 1))) with
    | none => exact .inr (.inl ⟨_, rfl, hd, rfl⟩)
    | some i => exact .inr (.inr ⟨_, i, rfl, hd, rfl⟩)
  · have hp' : 0xFFE < s.pcNat := by omega
    simp only [fetch_error hp']
    exact .inl ⟨hp', rfl⟩

/-- A step in `Running` commits one outcome, whose staged writes keep the run state and the parameters. -/
theorem step_commit {s : State} (hr : s.rs = .running) : ∃ r, step s = commit s r ∧ r.KeepsRun s := by
  rcases step_running_cases hr with ⟨_, h⟩ | ⟨w, _, _, h⟩ | ⟨w, i, _, _, h⟩
  · exact ⟨.fault (firstBad s.pcNat), h, trivial⟩
  · exact ⟨nextInstr s s, h, rfl, rfl⟩
  · rw [h]; exact exec_commit i s

theorem step_not_running {s : State} (hr : s.rs ≠ .running) : step s = .next s := by
  unfold step
  split
  · next h => exact absurd h hr
  · rfl
  · rfl

end Sys2Proof.Machine
end

