-- ==== Sys2Proof/Tests/Slice0.lean ====
section
/-! SUPPORT. The model's own tests. Expected values are those of spec/95_test_vectors.md (`V<n>`, `S<n>`), of the
patterns of rule R97, or worked out by hand from the rule named. Then, for each statement that has hypotheses, a concrete
state and operands that meet them. -/

namespace Sys2Proof.Tests

set_option Elab.async false

open Sys2Proof Sys2Proof.Machine

/-! ## Helpers -/

/-- The word `w` at `pc`, in the reset state with the `pc`, `I` and `SP` given. -/
def start (w : Nat) (pc : Word := 0x200) (i : Word := 0) (sp : Fin 17 := 0) : State :=
  State.withFetchWord { State.reset with pc := pc, i := i, sp := sp } 16 w

/-- The same state with the registers listed. -/
def withV (l : List (Reg × Byte)) (s : State) : State := l.foldl (fun s p => s.writeV p.1 p.2) s

/-- The same state with the bytes listed stored from `a`. -/
def withM (a : Nat) (bs : List Byte) (s : State) : State := s.storeBytes a bs

/-- The same state with the other `FLAG_WRITE_ORDER`. -/
def otherOrder (s : State) : State := { s with params := { s.params with flagWriteOrder := .resultThenFlag } }

/-- The outcome is a next state that passes the check. -/
def nextIs (o : Host.Outcome State Fault Refusal) (p : State → Bool) : Bool :=
  match o with
  | .next t => p t
  | .fault _ => false
  | .refused _ => false

/-- One step gives a next state with this `pc` that passes the check. -/
def stepTo (s : State) (pc : Word) (p : State → Bool) : Bool := nextIs (step s) fun t => t.pc == pc && p t

/-- The registers listed hold the bytes listed. -/
def holdsV (t : State) (l : List (Reg × Byte)) : Bool := l.all fun p => t.readV p.1 == p.2

/-- Memory from `a` holds the bytes listed. -/
def holdsM (t : State) (a : Nat) (bs : List Byte) : Bool := t.mem.readBytes a bs.length == bs

/-- The pixels that are on in the columns and rows given. -/
def pixelsOn (t : State) (cols : List (Fin 64)) (rows : List (Fin 32)) : List (Fin 64 × Fin 32) :=
  rows.flatMap fun r => (cols.filter fun c => t.fbRead c r).map fun c => (c, r)

/-- The state after one step. -/
def after (s : State) : State :=
  match step s with
  | .next t => t
  | .fault _ => s
  | .refused _ => s

/-- The state after one instruction. -/
def afterExec (i : Instr) (s : State) : State :=
  match exec i s with
  | .next t => t
  | .fault _ => s
  | .refused _ => s

theorem exec_eq_afterExec (i : Instr) (s : State) : exec i s = .next (afterExec i s) := by
  obtain ⟨r, h, -⟩ := exec_commit i s
  obtain ⟨t, ht⟩ := commit_next s r
  unfold afterExec
  rw [h, ht]

/-- The fetch gives this word. -/
def fetchIs (s : State) (w : Word) : Bool :=
  match fetch s with
  | .ok v => v == w
  | .error _ => false

theorem fetchIs_spec {s : State} {w : Word} (h : fetchIs s w = true) : fetch s = .ok w := by
  unfold fetchIs at h
  split at h
  · next v hv => rw [hv, eq_of_beq h]
  · cases h

theorem step_eq_after (s : State) : step s = .next (after s) := by
  have h : ∃ t, step s = .next t := by
    by_cases hr : s.rs = .running
    · obtain ⟨r, hs, -⟩ := step_commit hr
      rw [hs]; exact commit_next s r
    · exact ⟨s, step_not_running hr⟩
  obtain ⟨t, h⟩ := h
  unfold after
  rw [h]

theorem hostStep_eq_after (s : State) : hostOp .step s = .next (after s) := step_eq_after s

/-! ## WellFormed -/

/-- R293, V152: one byte too long. -/
theorem test_wf_image_too_long : ¬Image.wf (List.replicate 0xE01 0x00) := by
  rw [Image.wf, List.length_replicate]; decide

/-- V151: the longest image. -/
theorem test_wf_image_longest : Image.wf (List.replicate 0xE00 0x00) := by
  rw [Image.wf, List.length_replicate]

/-- R291: a glyph byte with a pixel in its low nibble. -/
theorem test_wf_font_low_nibble : ¬Font.wf (defaultFont.set 79 0x81) := by decide +kernel

theorem test_wf_font_default : Font.wf defaultFont := by decide +kernel

/-- Three memories that are not in canonical form: out of order, above 0xFFF, and listing what is read anyway. -/
theorem test_wf_memory_refuses :
    ¬Memory.wf [(0x301, 1), (0x300, 1)] ∧ ¬Memory.wf [(0x1000, 1)] ∧ ¬Memory.wf [(0x000, 0xF0)] := by decide +kernel

/-! ## Decode: one word of each row of R97 -/

theorem test_decode_cls : decodeWord 0b0000000011100000 = some .cls := by decide
theorem test_decode_ret : decodeWord 0b0000000011101110 = some .ret := by decide
theorem test_decode_jp : decodeWord 0b0001001000110100 = some (.jp 0x234) := by decide
theorem test_decode_call : decodeWord 0b0010001000000110 = some (.call 0x206) := by decide
theorem test_decode_seVxKk : decodeWord 0b0011001100111111 = some (.seVxKk 3 0x3F) := by decide
theorem test_decode_sneVxKk : decodeWord 0b0100110000010000 = some (.sneVxKk 0xC 0x10) := by decide
theorem test_decode_seVxVy : decodeWord 0b0101000100100000 = some (.seVxVy 1 2) := by decide
theorem test_decode_ldVxKk : decodeWord 0b0110101000111111 = some (.ldVxKk 0xA 0x3F) := by decide
theorem test_decode_addVxKk : decodeWord 0b0111000011111111 = some (.addVxKk 0 0xFF) := by decide
theorem test_decode_ldVxVy : decodeWord 0b1000111000010000 = some (.ldVxVy 0xE 1) := by decide
theorem test_decode_orVxVy : decodeWord 0b1000000100100001 = some (.orVxVy 1 2) := by decide
theorem test_decode_andVxVy : decodeWord 0b1000001000010010 = some (.andVxVy 2 1) := by decide
theorem test_decode_xorVxVy : decodeWord 0b1000010010000011 = some (.xorVxVy 4 8) := by decide
theorem test_decode_addVxVy : decodeWord 0b1000000111110100 = some (.addVxVy 1 0xF) := by decide
theorem test_decode_subVxVy : decodeWord 0b1000111100010101 = some (.subVxVy 0xF 1) := by decide
theorem test_decode_shrVx : decodeWord 0b1000101010110110 = some (.shrVx 0xA 0xB) := by decide
theorem test_decode_subnVxVy : decodeWord 0b1000000100100111 = some (.subnVxVy 1 2) := by decide
theorem test_decode_shlVx : decodeWord 0b1000001101011110 = some (.shlVx 3 5) := by decide
theorem test_decode_sneVxVy : decodeWord 0b1001000100100000 = some (.sneVxVy 1 2) := by decide
theorem test_decode_ldINnn : decodeWord 0b1010001100000001 = some (.ldINnn 0x301) := by decide
theorem test_decode_drw : decodeWord 0b1101000100101111 = some (.drw 1 2 0xF) := by decide
theorem test_decode_ldVxDt : decodeWord 0b1111001000000111 = some (.ldVxDt 2) := by decide
theorem test_decode_ldVxK : decodeWord 0b1111001100001010 = some (.ldVxK 3) := by decide
theorem test_decode_ldDtVx : decodeWord 0b1111010000010101 = some (.ldDtVx 4) := by decide
theorem test_decode_ldStVx : decodeWord 0b1111010100011000 = some (.ldStVx 5) := by decide
theorem test_decode_ldFVx : decodeWord 0b1111011000101001 = some (.ldFVx 6) := by decide
theorem test_decode_ldBVx : decodeWord 0b1111011100110011 = some (.ldBVx 7) := by decide
theorem test_decode_ldMemVx : decodeWord 0b1111100001010101 = some (.ldMemVx 8) := by decide
theorem test_decode_ldVxMem : decodeWord 0b1111100101100101 = some (.ldVxMem 9) := by decide

/-- V2, V140, R94 to R96: words of no row. -/
theorem test_decode_unknown :
    ([0x00E1, 0x0000, 0x0123, 0x00FF, 0x01E0, 0x5121, 0x9121, 0x8AB8, 0x800F, 0x800D] ++
      [0xB123, 0xC0FF, 0xE19E, 0xE1A1, 0xF11E, 0xF100, 0xF1FF]).all (fun w => decodeWord w == none) = true := by
  decide +kernel

/-- R66, R120: the first byte is the high byte, and the rest of the list is left. -/
theorem test_decode_bytes :
    decode [0x12, 0x34, 0x56] = .ok (.jp 0x234, [0x56]) ∧ decode [0x12] = .error .truncated := ⟨rfl, rfl⟩

/-- The rows of the opcode table, numbered as the table numbers their bits. -/
theorem test_decodeTableWord : decodeTableWord 16 0xD12F = some (.drw 1 2 0xF) := by decide +kernel

/-! ## Control transfer -/

/-- V10. -/
theorem test_jp : stepTo (start 0x1FFE) 0xFFE (fun t => t.rs == .running) = true := by decide +kernel

/-- V12. -/
theorem test_call :
    stepTo (start 0x2300) 0x300 (fun t => t.sp.val == 1 && t.stackEntry 0 == 0x200) = true := by decide +kernel

/-- V15. -/
theorem test_call_overflow :
    stepTo (start 0x2400 0x250 0 16) 0x250
      (fun t => t.rs == .halted .stackOverflow && t.sp.val == 16 && t.stackEntry 15 == 0) = true := by decide +kernel

/-- V13. -/
theorem test_ret :
    stepTo { start 0x00EE 0x300 0 1 with stack := (Vector.replicate 16 0).set 0 0x200 } 0x202
      (fun t => t.sp.val == 0 && t.stackEntry 0 == 0x200) = true := by decide +kernel

/-- V14. -/
theorem test_ret_underflow :
    stepTo (start 0x00EE) 0x200 (fun t => t.rs == .halted .stackUnderflow && t.sp.val == 0) = true := by
  decide +kernel

/-- V17. -/
theorem test_se_imm_taken : stepTo (withV [(3, 0x3F)] (start 0x333F)) 0x204 (fun _ => true) = true := by decide +kernel

/-- V24: a skip from 0xFFE ends the run. -/
theorem test_se_imm_end :
    stepTo (start 0x3000 0xFFE) 0x1002 (fun t => t.rs == .halted .endOfMemory) = true := by decide +kernel

/-- V19. -/
theorem test_sne_imm_taken : stepTo (withV [(3, 0x3E)] (start 0x433F)) 0x204 (fun _ => true) = true := by decide +kernel

/-- V20. -/
theorem test_se_reg_taken : stepTo (withV [(1, 7), (2, 7)] (start 0x5120)) 0x204 (fun _ => true) = true := by
  decide +kernel

/-- V22. -/
theorem test_sne_reg_taken : stepTo (withV [(1, 7), (2, 8)] (start 0x9120)) 0x204 (fun _ => true) = true := by
  decide +kernel

/-- V23. -/
theorem test_sne_reg_same : stepTo (withV [(1, 7)] (start 0x9110)) 0x202 (fun _ => true) = true := by decide +kernel

/-! ## ALU -/

/-- V30. -/
theorem test_ld_imm : stepTo (start 0x6A3F) 0x202 (holdsV · [(0xA, 0x3F), (0xB, 0)]) = true := by decide +kernel

/-- V31. -/
theorem test_add_imm_wraps :
    stepTo (withV [(0, 0xFF), (0xF, 0x07)] (start 0x7001)) 0x202 (holdsV · [(0, 0x00), (0xF, 0x07)]) = true := by
  decide +kernel

/-- V34. -/
theorem test_ld_reg : stepTo (withV [(2, 0x55)] (start 0x8120)) 0x202 (holdsV · [(1, 0x55), (2, 0x55)]) = true := by
  decide +kernel

/-- V35. -/
theorem test_or :
    stepTo (withV [(1, 0xF0), (2, 0x0F), (0xF, 0x5A)] (start 0x8121)) 0x202 (holdsV · [(1, 0xFF), (0xF, 0x5A)]) = true := by
  decide +kernel

/-- V36. -/
theorem test_and :
    stepTo (withV [(1, 0xF0), (2, 0x3C), (0xF, 0x5A)] (start 0x8122)) 0x202 (holdsV · [(1, 0x30), (0xF, 0x5A)]) = true := by
  decide +kernel

/-- V37. -/
theorem test_xor :
    stepTo (withV [(1, 0xFF), (2, 0x0F), (0xF, 0x5A)] (start 0x8123)) 0x202 (holdsV · [(1, 0xF0), (0xF, 0x5A)]) = true := by
  decide +kernel

/-- V39. -/
theorem test_add_carry :
    stepTo (withV [(1, 0xFF), (2, 0x01)] (start 0x8124)) 0x202 (holdsV · [(1, 0x00), (0xF, 0x01)]) = true := by
  decide +kernel

/-- V55, in both orders: the result wins, or the flag does. -/
theorem test_add_on_VF :
    stepTo (withV [(0xF, 0xF0), (1, 0x20)] (start 0x8F14)) 0x202 (holdsV · [(0xF, 0x10)]) = true ∧
    stepTo (otherOrder (withV [(0xF, 0xF0), (1, 0x20)] (start 0x8F14))) 0x202 (holdsV · [(0xF, 0x01)]) = true := by
  decide +kernel

/-- V43: the comparison is strict. -/
theorem test_sub_equal :
    stepTo (withV [(1, 0x05), (2, 0x05)] (start 0x8125)) 0x202 (holdsV · [(1, 0x00), (0xF, 0x00)]) = true := by
  decide +kernel

/-- V60: `Vy` is the old `VF`, and the subtraction wraps. -/
theorem test_sub_from_VF :
    stepTo (withV [(0xF, 0x01), (1, 0x00)] (start 0x81F5)) 0x202 (holdsV · [(1, 0xFF), (0xF, 0x00)]) = true := by
  decide +kernel

/-- V47: `y` is ignored. -/
theorem test_shr :
    stepTo (withV [(1, 0x01), (2, 0x80)] (start 0x8126)) 0x202 (holdsV · [(1, 0x00), (2, 0x80), (0xF, 0x01)]) = true := by
  decide +kernel

/-- V57, in both orders. -/
theorem test_shr_on_VF :
    stepTo (withV [(0xF, 0x02)] (start 0x8F06)) 0x202 (holdsV · [(0xF, 0x01)]) = true ∧
    stepTo (otherOrder (withV [(0xF, 0x02)] (start 0x8F06))) 0x202 (holdsV · [(0xF, 0x00)]) = true := by decide +kernel

/-- V49. -/
theorem test_subn :
    stepTo (withV [(1, 0x03), (2, 0x08)] (start 0x8127)) 0x202 (holdsV · [(1, 0x05), (0xF, 0x01)]) = true := by
  decide +kernel

/-- V50. -/
theorem test_subn_borrow :
    stepTo (withV [(1, 0x08), (2, 0x03)] (start 0x8127)) 0x202 (holdsV · [(1, 0xFB), (0xF, 0x00)]) = true := by
  decide +kernel

/-- V52. -/
theorem test_shl : stepTo (withV [(1, 0x81)] (start 0x810E)) 0x202 (holdsV · [(1, 0x02), (0xF, 0x01)]) = true := by
  decide +kernel

/-! ## Index register and memory transfers -/

/-- V71. -/
theorem test_ld_I : stepTo (start 0xAFFF) 0x202 (fun t => t.i == 0xFFF) = true := by decide +kernel

/-- V75: the value is not masked. -/
theorem test_ld_F : stepTo (withV [(0, 0xFF)] (start 0xF029)) 0x202 (fun t => t.i == 0x4FB) = true := by decide +kernel

/-- V80: the last byte stored is at 0xFFF. -/
theorem test_bcd :
    stepTo (withV [(3, 0x9D)] (start 0xF333 0x200 0xFFD)) 0x202 (fun t => holdsM t 0xFFD [1, 5, 7] && t.i == 0xFFD)
      = true := by decide +kernel

/-- V81: nothing is stored. -/
theorem test_bcd_out_of_range :
    stepTo (withV [(3, 0x9D)] (start 0xF333 0x204 0xFFE)) 0x204
      (fun t => holdsM t 0xFFE [0, 0] && t.rs == .halted (.addressOutOfRange 0x1000)) = true := by decide +kernel

/-- V82, and the byte after the block is kept. -/
theorem test_store_block :
    stepTo (withM 0x403 [0x99] (withV [(0, 0x11), (1, 0x22), (2, 0x33), (3, 0x44)] (start 0xF255 0x200 0x400))) 0x202
      (fun t => holdsM t 0x3FF [0, 0x11, 0x22, 0x33, 0x99] && t.i == 0x400) = true := by decide +kernel

/-- V84. -/
theorem test_store_block_out_of_range :
    stepTo (withV [(0, 5)] (start 0xFF55 0x206 0xFF1)) 0x206
      (fun t => holdsM t 0xFF1 [0] && t.rs == .halted (.addressOutOfRange 0x1000)) = true := by decide +kernel

/-- V86. -/
theorem test_load_block :
    stepTo (withM 0x300 [1, 5, 7, 9] (withV [(3, 0x44)] (start 0xF265 0x200 0x300))) 0x202
      (fun t => holdsV t [(0, 1), (1, 5), (2, 7), (3, 0x44)] && t.i == 0x300) = true := by decide +kernel

/-- V87: the default font. -/
theorem test_load_block_font :
    stepTo (start 0xF465) 0x202 (holdsV · [(0, 0xF0), (1, 0x90), (2, 0x90), (3, 0x90), (4, 0xF0)]) = true := by
  decide +kernel

/-! ## Display -/

/-- V100. -/
theorem test_cls :
    stepTo { withV [(0xF, 5)] (start 0x00E0) with fb := fbSet clearFb 63 31 true } 0x202
      (fun t => t.fbRead 63 31 == false && t.fbRead 0 0 == false && holdsV t [(0xF, 5)]) = true ∧
    stepNotifications (start 0x00E0) = [.clear] := by decide +kernel

/-- V101: glyph 0 at the origin. -/
theorem test_drw_glyph :
    stepTo (start 0xD015) 0x202
      (fun t => pixelsOn t [0, 1, 2, 3, 4] [0, 1, 4, 5] ==
        [(0, 0), (1, 0), (2, 0), (3, 0), (0, 1), (3, 1), (0, 4), (1, 4), (2, 4), (3, 4)] && holdsV t [(0xF, 0)]) = true := by
  decide +kernel

/-- V110: one pixel on, one off, collision. -/
theorem test_drw_collision :
    stepTo { withM 0x300 [0xC0] (start 0xD011 0x200 0x300) with fb := fbSet clearFb 1 0 true } 0x202
      (fun t => pixelsOn t [0, 1, 2] [0] == [(0, 0)] && holdsV t [(0xF, 1)]) = true := by decide +kernel

/-- V103: clipped on the right; the notifications in order. -/
theorem test_drw_notifications :
    stepNotifications (withM 0x300 [0xFF] (withV [(0, 0x3C)] (start 0xD011 0x200 0x300))) =
      [.setPixel 60 0 true, .setPixel 61 0 true, .setPixel 62 0 true, .setPixel 63 0 true] := by decide +kernel

/-! ## Timers and key input -/

/-- V120. -/
theorem test_ld_DT : stepTo (withV [(4, 0x3C)] (start 0xF415)) 0x202 (fun t => t.dt == 0x3C && t.st == 0) = true := by
  decide +kernel

/-- V121. -/
theorem test_ld_ST : stepTo (withV [(4, 0x05)] (start 0xF418)) 0x202 (fun t => t.st == 0x05 && t.dt == 0) = true := by
  decide +kernel

/-- V122. -/
theorem test_read_DT : stepTo { start 0xF207 with dt := 0x3C } 0x202 (holdsV · [(2, 0x3C)]) = true := by decide +kernel

/-- V127. -/
theorem test_wait_key :
    stepTo (start 0xF30A 0x210) 0x210 (fun t => t.rs == .awaitingKey 3 && holdsV t [(3, 0)]) = true := by decide +kernel

/-- V129. -/
theorem test_key_completes :
    nextIs (hostOp (.key 7) { start 0xF30A 0x210 with rs := .awaitingKey 3 })
      (fun t => t.pc == 0x212 && t.rs == .running && holdsV t [(3, 7)]) = true := by decide +kernel

/-- V124, V126. -/
theorem test_tick :
    nextIs (hostOp .tick { State.reset with dt := 2, st := 0 }) (fun t => t.dt == 1 && t.st == 0) = true ∧
    nextIs (hostOp .tick { State.reset with dt := 5, rs := .halted .endOfMemory }) (fun t => t.dt == 5) = true := by
  decide +kernel

/-! ## UNKNOWN words, fetch and reset -/

/-- V140. -/
theorem test_unknown_step :
    step (start 0x5121) = .next { start 0x5121 with pc := 0x202 } ∧
    stepNotifications (start 0x5121) = [.unknownOpcode 0x200 0x5121] := ⟨rfl, rfl⟩

/-- V3: an odd address. -/
theorem test_odd_pc : stepTo (start 0x6005 0x201) 0x203 (holdsV · [(0, 5)]) = true := by decide +kernel

/-- V5. -/
theorem test_fetch_top :
    stepTo (start 0x6005 0xFFF) 0xFFF (fun t => t.rs == .halted (.addressOutOfRange 0x1000)) = true := by decide +kernel

/-- V150, V153. -/
theorem test_reset :
    nextIs (hostOp (.reset [0x12, 0x00]) { State.reset with rs := .halted .stackOverflow, sp := 16, dt := 3 })
      (fun t => holdsM t 0x1FF [0, 0x12, 0, 0] && holdsM t 0 [0xF0, 0x90] && t.sp == 0 && t.dt == 0 &&
        t.pc == 0x200 && t.rs == .running) = true := by decide +kernel

/-! ## Witnesses: encoding -/

theorem start_inv (w : Nat) (pc i : Word) (sp : Fin 17) (hp : pc.toNat ≤ 0xFFF) (hi : i.toNat ≤ 0xFFF) :
    Inv (start w pc i sp) := by
  refine ⟨writeBytes_wf ⟨by simp [State.reset], by simp [State.reset]⟩ _ _, hi, hp, fun k _ => ?_⟩
  simp [start, State.withFetchWord, State.resumeAt, State.stackEntry, State.storeBytes, State.reset]

/-- Each row of the table has a word that matches it, and 0xFFFF matches none. -/
theorem witness_OpcodeRowsSelectTheirOperation :
    (∀ row ∈ opcodeRows, row.pattern &&& row.mask = row.pattern ∧ selectOp row.pattern = row.op) ∧
    (∀ row ∈ opcodeRows, (0xFFFF : Word) &&& row.mask ≠ row.pattern) := by decide +kernel

/-- A word for each clause of the statement, at the ends of its range. -/
theorem witness_UnknownWordsAreThoseOutsideTheMap :
    [0x0FFF, 0x00E1, 0x5001, 0x9FFF, 0x8008, 0x800D, 0xB000, 0xBFFF, 0xC000, 0xE000, 0xEFFF, 0xF000, 0xFFFF].all
      (fun w => decodeWord w == none) = true := by decide +kernel

theorem witness_EncodeOfDecodeIsTheWord :
    decodeWord 0xFF65 = some (.ldVxMem 15) ∧ decode [0xFF, 0x65, 0x00] = .ok (.ldVxMem 15, [0x00]) := ⟨rfl, rfl⟩

/-! ## Witnesses: the step -/

/-- The last two bytes of memory hold an instruction. -/
theorem witness_StepRunsTheDecodedInstruction :
    (start 0x6A3F 0xFFE).rs = .running ∧ (start 0x6A3F 0xFFE).pc.toNat ≤ 0xFFE ∧
    decode [(start 0x6A3F 0xFFE).readMem 0xFFE, (start 0x6A3F 0xFFE).readMem 0xFFF] = .ok (.ldVxKk 0xA 0x3F, []) :=
  ⟨rfl, by decide, rfl⟩

theorem witness_StepAtUnknownWordOnlyAdvances :
    (start 0xB123 0xFFE).rs = .running ∧ (start 0xB123 0xFFE).pc.toNat ≤ 0xFFE ∧
    decodeWord (wordOfBytes ((start 0xB123 0xFFE).readMem 0xFFE) ((start 0xB123 0xFFE).readMem 0xFFF)) = none :=
  ⟨rfl, by decide, rfl⟩

theorem witness_FetchPastTheTopHalts :
    (start 0 0xFFF).rs = .running ∧ 0xFFE < (start 0 0xFFF).pc.toNat ∧ (start 0 0xFFF).pc = 0xFFF :=
  ⟨rfl, by decide, rfl⟩

theorem witness_WaitingAndHaltedCoresDoNotStep :
    { State.reset with rs := .awaitingKey 15 }.rs = .awaitingKey 15 ∧
    { State.reset with rs := .halted .endOfMemory }.rs = .halted .endOfMemory ∧ State.reset.rs = .running :=
  ⟨rfl, rfl, rfl⟩

theorem witness_EveryOperationAnswersANextState :
    ∀ image, HostOp.reset (List.replicate 0xE00 0x00) = .reset image → image.length ≤ 0xE00 := by
  intro image h
  cases h
  rw [List.length_replicate]

/-- Each fatal cause is reached. -/
theorem witness_FatalHaltsArePrecise :
    (step (start 0x2400 0x250 0 16) = .next (haltedWith (start 0x2400 0x250 0 16) .stackOverflow) ∧
      HaltCause.stackOverflow.fatal) ∧
    (step (start 0x00EE) = .next (haltedWith (start 0x00EE) .stackUnderflow) ∧ HaltCause.stackUnderflow.fatal) ∧
    step (start 0xF333 0x204 0xFFE) = .next (haltedWith (start 0xF333 0x204 0xFFE) (.addressOutOfRange 0x1000)) ∧
      (HaltCause.addressOutOfRange 0x1000).fatal :=
  ⟨⟨rfl, trivial⟩, ⟨rfl, trivial⟩, rfl, trivial⟩

/-- The states where each cause comes from, and the invariant holds in them. -/
theorem witness_FatalCausesComeFromTheirInstructions :
    (Inv (start 0x2400 0x250 0 16) ∧ (after (start 0x2400 0x250 0 16)).rs = .halted .stackOverflow) ∧
    (Inv (start 0x00EE) ∧ (after (start 0x00EE)).rs = .halted .stackUnderflow) ∧
    (Inv (start 0 0xFFF) ∧ (after (start 0 0xFFF)).rs = .halted (.addressOutOfRange 0x1000)) ∧
    (Inv (start 0xF333 0x200 0xFFE) ∧ (after (start 0xF333 0x200 0xFFE)).rs = .halted (.addressOutOfRange 0x1000)) ∧
    (Inv (start 0xFF65 0x200 0xFF1) ∧ (after (start 0xFF65 0x200 0xFF1)).rs = .halted (.addressOutOfRange 0x1000)) ∧
    Inv (start 0xD012 0x200 0xFFF) ∧ (after (start 0xD012 0x200 0xFFF)).rs = .halted (.addressOutOfRange 0x1000) :=
  ⟨⟨start_inv _ _ _ _ (by decide) (by decide), rfl⟩, ⟨start_inv _ _ _ _ (by decide) (by decide), rfl⟩,
    ⟨start_inv _ _ _ _ (by decide) (by decide), rfl⟩, ⟨start_inv _ _ _ _ (by decide) (by decide), rfl⟩,
    ⟨start_inv _ _ _ _ (by decide) (by decide), rfl⟩, start_inv _ _ _ _ (by decide) (by decide), rfl⟩

/-- A wait that a key ends inside memory, and one that it ends at the end of memory; a halted and a running state. -/
theorem witness_RunStateMovesAsTheTableSays :
    (Inv { start 0xF30A 0xFFD with rs := .awaitingKey 3 } ∧
      nextIs (hostOp (.key 1) { start 0xF30A 0xFFD with rs := .awaitingKey 3 }) (fun t => t.rs == .running) = true) ∧
    (Inv { start 0xF30A 0xFFE with rs := .awaitingKey 3 } ∧
      nextIs (hostOp (.key 1) { start 0xF30A 0xFFE with rs := .awaitingKey 3 })
        (fun t => t.rs == .halted .endOfMemory) = true) ∧
    (Inv { start 0 0x1000 with rs := .halted .endOfMemory } ∧
      nextIs (hostOp .step { start 0 0x1000 with rs := .halted .endOfMemory }) (fun t => t.pc == 0x1000) = true) ∧
    Inv (start 0xF30A 0xFFE) ∧
      nextIs (hostOp .step (start 0xF30A 0xFFE)) (fun t => t.rs == .awaitingKey 0x3) = true := by
  have h (w : Nat) (pc : Word) (hp : pc.toNat ≤ 0xFFF) : Inv { start w pc with rs := .awaitingKey 3 } :=
    have := start_inv w pc 0 0 hp (by decide)
    ⟨this.mem_wf, this.index_legal, hp, this.stack_legal⟩
  refine ⟨⟨h _ _ (by decide), by decide +kernel⟩, ⟨h _ _ (by decide), by decide +kernel⟩, ⟨⟨?_, ?_, ?_, ?_⟩, by decide +kernel⟩,
    start_inv _ _ _ _ (by decide) (by decide), by decide +kernel⟩
  · exact writeBytes_wf ⟨by simp [State.reset], by simp [State.reset]⟩ _ _
  · decide
  · exact ⟨by decide, by decide⟩
  · intro k hk; exact absurd hk (by simp [start, State.withFetchWord, State.storeBytes, State.reset])

/-- Instructions of each kind whose outcome is no fatal halt, at the ends of memory and of the stack. -/
theorem witness_NextPcFollowsTheTable :
    (Inv (start 0x3000 0xFFE) ∧ nextIs (exec (.seVxKk 0 0) (start 0x3000 0xFFE)) (fun t => t.pc == 0x1002) = true) ∧
    (Inv (start 0x00EE 0x200 0 16) ∧ nextIs (exec .ret (start 0x00EE 0x200 0 16)) (fun t => t.rs == .running) = true) ∧
    (Inv (start 0x2300 0x200 0 15) ∧
      nextIs (exec (.call 0x300) (start 0x2300 0x200 0 15)) (fun t => t.rs == .running) = true) ∧
    Inv (start 0xF30A) ∧ nextIs (exec (.ldVxK 3) (start 0xF30A)) (fun t => t.rs == .awaitingKey 3) = true ∧
    (start 0xF30A).rs = .running ∧ (RunState.awaitingKey 3).safe ∧ RunState.running.safe ∧
    (RunState.halted .endOfMemory).safe ∧ decodeWord 0xB123 = none ∧ fetchIs (start 0xB123 0xFFE) 0xB123 = true ∧
    Inv (start 0xB123 0xFFE) :=
  ⟨⟨start_inv _ _ _ _ (by decide) (by decide), by decide +kernel⟩,
    ⟨start_inv _ _ _ _ (by decide) (by decide), by decide +kernel⟩,
    ⟨start_inv _ _ _ _ (by decide) (by decide), by decide +kernel⟩,
    start_inv _ _ _ _ (by decide) (by decide), by decide +kernel, rfl, trivial, trivial, fun h => h, rfl, by decide +kernel,
    start_inv _ _ _ _ (by decide) (by decide)⟩

/-! ## Witnesses: control transfer -/

/-- The last free entry, and a full stack. -/
theorem witness_CallPushesItsAddressAndJumps :
    (start 0x2300 0x200 0 15).sp.val < 16 ∧ (start 0x2300 0x200 0 16).sp.val = 16 := by decide

/-- The first and the last entry, and an empty stack. -/
theorem witness_RetResumesAfterTheCall :
    (start 0x00EE 0x200 0 1).sp.val = (0 : Fin 16).val + 1 ∧ (start 0x00EE 0x200 0 16).sp.val = (15 : Fin 16).val + 1 ∧
    (start 0x00EE).sp.val = 0 := by decide

/-- Program P3 of 95_test_vectors.md: 2206 at 0x200, 6B02 at 0x206, 00EE at 0x208. -/
def callProgram : State :=
  loadImage defaultParams [0x22, 0x06, 0x6A, 0x01, 0x1F, 0xFE, 0x6B, 0x02, 0x00, 0xEE]

/-- P3, S4: the call, one step of the subroutine, the return, which resumes at 0x202. -/
theorem witness_CallThenReturnResumesAfterTheCall :
    callProgram.rs = .running ∧ fetch callProgram = .ok 0x2206 ∧ decodeWord 0x2206 = some (.call 0x206) ∧
    callProgram.sp.val < 16 ∧ step callProgram = .next (after callProgram) ∧
    NoReturnAt (after callProgram).sp.val (after callProgram) (after (after callProgram)) ∧
    ExecutesRet (after (after callProgram)) ∧ (after (after callProgram)).sp = (after callProgram).sp ∧
    step (after (after callProgram)) = .next (after (after (after callProgram))) ∧
    (after (after (after callProgram))).pc = 0x202 := by
  have hnot : ¬ExecutesRet (after callProgram) := by
    intro h
    have hf : fetch (after callProgram) = .ok 0x6B02 := fetchIs_spec (by decide +kernel)
    have he := hf.symm.trans h.2
    cases he
  refine ⟨rfl, fetchIs_spec (by decide +kernel), rfl, by decide, step_eq_after _, ?_,
    ⟨by decide +kernel, fetchIs_spec (by decide +kernel)⟩, by decide +kernel, step_eq_after _, by decide +kernel⟩
  exact .step .step (.refl _) (fun _ h => (by cases h)) (fun h => hnot h.2.1) (hostStep_eq_after _)

/-! ## Witnesses: ALU -/

/-- A flagged instruction on a register other than `VF`, and on `VF` in each order, with the flag set and clear. -/
theorem witness_flagged :
    ((1 : Reg) ≠ VF) ∧ (start 0x8F14).params.flagWriteOrder = .flagThenResult ∧
    (otherOrder (start 0x8F14)).params.flagWriteOrder = .resultThenFlag ∧ carryFlag 0xFF 0x01 = true ∧
    carryFlag 0xFF 0x00 = false ∧ greaterFlag 0x06 0x05 = true ∧ greaterFlag 0x05 0x05 = false := by decide +kernel

/-- V57: the two orders differ on `VF`. -/
theorem witness_WriteOrdersDifferOnlyOnVF :
    nextIs (exec (.shrVx VF 0) (withV [(VF, 2)] (start 0x8F06))) (holdsV · [(VF, 1)]) = true ∧
    nextIs (exec (.shrVx VF 0) (otherOrder (withV [(VF, 2)] (start 0x8F06)))) (holdsV · [(VF, 0)]) = true := by
  decide +kernel

/-! ## Witnesses: memory transfers -/

theorem witness_StoreDecimalDigits :
    (start 0xF333 0x200 0xFFD).mem.wf ∧ (start 0xF333 0x200 0xFFD).i.toNat + 2 ≤ 0xFFF ∧
    0xFFF < (start 0xF333 0x200 0xFFE).i.toNat + 2 :=
  ⟨(start_inv _ _ _ _ (by decide) (by decide)).mem_wf, by decide, by decide⟩

theorem witness_StoreRegisterBlock :
    (start 0xFF55 0x200 0xFF0).mem.wf ∧ (start 0xFF55 0x200 0xFF0).i.toNat + (15 : Reg).val ≤ 0xFFF ∧
    0xFFF < (start 0xFF55 0x200 0xFF1).i.toNat + (15 : Reg).val ∧
    (start 0xF055 0x200 0xFFF).i.toNat + (0 : Reg).val ≤ 0xFFF :=
  ⟨(start_inv _ _ _ _ (by decide) (by decide)).mem_wf, by decide, by decide, by decide⟩

theorem witness_LoadRegisterBlock :
    (start 0xFF65 0x200 0xFF0).i.toNat + (15 : Reg).val ≤ 0xFFF ∧
    0xFFF < (start 0xFF65 0x200 0xFF1).i.toNat + (15 : Reg).val := by decide

/-- Program P7 in one state: `V0`, `V1` stored at 0xFFE, and a core whose `pc` is 0xFFE over that memory. -/
theorem witness_StoredBytesAreFetchedNext :
    let s := withV [(0, 0x6A), (1, 0x42)] (start 0xF155 0x206 0xFFE)
    let t := afterExec (.ldMemVx 1) s
    s.mem.wf ∧ s.i.toNat + (1 : Reg).val ≤ 0xFFF ∧ exec (.ldMemVx 1) s = .next t ∧ (0 : Reg) < 1 ∧
    { t with pc := 0xFFE }.mem = t.mem ∧ ({ t with pc := 0xFFE } : State).pc.toNat = s.i.toNat + (0 : Reg).val ∧
    fetch { t with pc := 0xFFE } = .ok 0x6A42 :=
  ⟨(start_inv 0xF155 0x206 0xFFE 0 (by decide) (by decide)).mem_wf, by decide, exec_eq_afterExec _ _, by decide, rfl,
    by decide, fetchIs_spec (by decide +kernel)⟩

/-! ## Witnesses: display -/

/-- The last byte of memory as a sprite of one row; two rows fault; no rows never do. -/
theorem witness_DrwTogglesTheSpritePixels :
    ((start 0xD011 0x200 0xFFF).i.toNat + (1 : BitVec 4).toNat ≤ 0x1000) ∧
    (0x1000 < (start 0xD012 0x200 0xFFF).i.toNat + (2 : BitVec 4).toNat ∧ (2 : BitVec 4) ≠ 0) ∧
    (0x1000 < (start 0xD010 0x200 0x1001).i.toNat + (0 : BitVec 4).toNat ∧ (0 : BitVec 4) = 0) := by decide

theorem witness_DrwNotifiesEachToggledPixelInOrder :
    stepNotifications (withM 0xFFF [0x80] (start 0xD011 0x200 0xFFF)) = [.setPixel 0 0 true] ∧
    stepNotifications (withM 0xFFF [0x80] (start 0xD012 0x200 0xFFF)) = [] := by decide +kernel

theorem witness_NotificationsMirrorTheFramebuffer :
    step (start 0xD015) = .next (after (start 0xD015)) ∧ (stepNotifications (start 0xD015)).length = 14 :=
  ⟨step_eq_after _, by decide +kernel⟩

/-- V101, V102: the same glyph twice. -/
theorem witness_DrawingTwiceRestoresTheFramebuffer :
    let s := start 0xD015
    let t := afterExec (.drw 0 1 5) s
    s.i.toNat + (5 : BitVec 4).toNat ≤ 0x1000 ∧ exec (.drw 0 1 5) s = .next t ∧ t.readV 0 = s.readV 0 ∧
    t.readV 1 = s.readV 1 ∧ t.i = s.i ∧ (∀ k, k < 5 → t.readMem (s.i.toNat + k) = s.readMem (s.i.toNat + k)) ∧
    pixelsOn (afterExec (.drw 0 1 5) t) [0, 1, 2, 3] [0, 4] = pixelsOn s [0, 1, 2, 3] [0, 4] :=
  ⟨by decide, exec_eq_afterExec _ _, by decide +kernel, by decide +kernel, by decide +kernel, by decide +kernel,
    by decide +kernel⟩

/-! ## Witnesses: timers, key input, whole-machine rules, reset -/

theorem witness_KeyWaitAndResume : ∀ op ∈ [HostOp.tick, .step, .read], op = .tick ∨ op = .step ∨ op = .read := by
  decide

theorem witness_KeyCompletesTheWait :
    { start 0xFF0A 0xFFE with rs := .awaitingKey 15 }.rs = .awaitingKey 15 ∧
    nextIs (hostOp (.key 0xF) { start 0xFF0A 0xFFE with rs := .awaitingKey 15 })
      (fun t => t.pc == 0x1000 && t.rs == .halted .endOfMemory && holdsV t [(15, 15)]) = true :=
  ⟨rfl, by decide +kernel⟩

theorem witness_TickDecrementsAndClamps :
    (∀ c, State.reset.rs ≠ .halted c) ∧ { State.reset with rs := .halted .endOfMemory }.rs = .halted .endOfMemory :=
  ⟨fun _ h => (by cases h), rfl⟩

/-- A load of a register from an immediate, with the delay timer running. -/
theorem witness_TicksCommuteWithOtherSteps :
    let s := { start 0x6A3F with dt := 1 }
    s.rs = .running ∧ step s = .next (after s) ∧ (∀ c, (after s).rs ≠ .halted c) ∧
    (∀ w x, fetch s = .ok w →
      decodeWord w ≠ some (.ldVxDt x) ∧ decodeWord w ≠ some (.ldDtVx x) ∧ decodeWord w ≠ some (.ldStVx x)) := by
  refine ⟨rfl, step_eq_after _, fun c h => ?_, fun w x h => ?_⟩
  · have : (after { start 0x6A3F with dt := 1 }).rs = .running := rfl
    rw [this] at h; cases h
  · have hf : fetch { start 0x6A3F with dt := 1 } = .ok 0x6A3F := rfl
    rw [hf] at h
    cases h
    have : decodeWord 0x6A3F = some (.ldVxKk 0xA 0x3F) := rfl
    rw [this]
    simp

theorem witness_OnlyListedRegistersAreWritten :
    nextIs (exec (.ldVxKk 0xA 0x3F) State.reset) (fun t => t.readV 0xA != State.reset.readV 0xA) = true := by
  decide +kernel

theorem witness_UnlistedRegistersAreNotRead :
    readsReg (.ldVxKk 0xA 0x3F) 0xA = false ∧ readsReg (.shrVx 1 2) 2 = false ∧ readsReg (.drw 1 2 5) VF = false := by
  decide

/-- Each piece of state is changed by one of its writers. -/
theorem witness_EachPartHasItsWriters :
    nextIs (exec (.ldINnn 0x300) State.reset) (fun t => t.i != 0) = true ∧
    nextIs (exec (.ldDtVx 1) (withV [(1, 9)] State.reset)) (fun t => t.dt != 0) = true ∧
    nextIs (exec (.ldStVx 1) (withV [(1, 9)] State.reset)) (fun t => t.st != 0) = true ∧
    nextIs (exec (.call 0x300) State.reset) (fun t => t.sp != 0 && t.resumeAt 0 == 0x202) = true ∧
    nextIs (exec (.ldMemVx 0) { withV [(0, 9)] State.reset with i := 0x300 }) (fun t => t.mem != []) = true ∧
    nextIs (exec (.drw 0 1 5) State.reset) (fun t => t.fbRead 0 0 != State.reset.fbRead 0 0) = true := by decide +kernel

theorem witness_StepKeepsTheInvariant :
    Inv (start 0xFF55 0x200 0xFF0) ∧ step (start 0xFF55 0x200 0xFF0) = .next (after (start 0xFF55 0x200 0xFF0)) :=
  ⟨start_inv _ _ _ _ (by decide) (by decide), step_eq_after _⟩

/-- A state reached by a load and a step. -/
theorem witness_ReachableStatesAreLegal : Reachable (after callProgram) :=
  .op (s := callProgram) .step (.load defaultParams _ (by decide)) (hostStep_eq_after _)

theorem witness_ResetLoadsFontAndImage :
    (List.replicate 0xE00 (0x60 : Byte)).length ≤ 0xE00 ∧ ([] : List Byte).length ≤ 0xE00 := by
  rw [List.length_replicate]; decide

/-- V152. -/
theorem witness_LongImagesAreRefused : 0xE00 < (List.replicate 0xE01 (0x60 : Byte)).length := by
  rw [List.length_replicate]; decide

end Sys2Proof.Tests
end

namespace Sys2Proof.Machine

/-! # Proofs about the architectural state (10_state.md)

What one instruction may do is said once, by `exec_staged`: which parts and which registers it stages, which `pc` it
gives and which fault it raises. O45 and O47 are read off it; the invariant (O49, O50) rests on it and on the few
instructions that write memory, `I` or the stack. -/

/-! ## What an instruction changes, as a table of parts -/

/-- The fields behind a part hold the same values. Unlike `Unchanged`, this speaks of the representation, so it also
carries the canonical form of memory over. -/
def SamePart (p : Part) (s t : State) : Prop :=
  match p with
  | .v => t.v = s.v
  | .i => t.i = s.i
  | .dt => t.dt = s.dt
  | .st => t.st = s.st
  | .stack => t.sp = s.sp ∧ t.stack = s.stack
  | .mem => t.mem = s.mem
  | .fb => t.fb = s.fb

/-- Every field outside `pc` and the listed parts is the same, the run state and the parameters included. -/
structure ChangesOnly (parts : List Part) (s t : State) : Prop where
  part : ∀ p, p ∉ parts → SamePart p s t
  rs : t.rs = s.rs
  params : t.params = s.params

theorem changesOnly_refl (parts : List Part) (s : State) : ChangesOnly parts s s :=
  ⟨fun p _ => by cases p <;> simp [SamePart], rfl, rfl⟩

theorem changesOnly_v {parts : List Part} (h : .v ∈ parts) (s : State) (v : Vector Byte 16) :
    ChangesOnly parts s { s with v := v } :=
  ⟨fun p hp => by cases p <;> simp_all [SamePart], rfl, rfl⟩

theorem changesOnly_writeI (s : State) (w : Word) : ChangesOnly [.i] s (s.writeI w) :=
  ⟨fun p hp => by cases p <;> simp_all [SamePart], rfl, rfl⟩

theorem changesOnly_writeDt (s : State) (b : Byte) : ChangesOnly [.dt] s (s.writeDt b) :=
  ⟨fun p hp => by cases p <;> simp_all [SamePart], rfl, rfl⟩

theorem changesOnly_writeSt (s : State) (b : Byte) : ChangesOnly [.st] s (s.writeSt b) :=
  ⟨fun p hp => by cases p <;> simp_all [SamePart], rfl, rfl⟩

theorem changesOnly_storeBytes (s : State) (a : Nat) (bs : List Byte) : ChangesOnly [.mem] s (s.storeBytes a bs) :=
  ⟨fun p hp => by cases p <;> simp_all [SamePart], rfl, rfl⟩

theorem changesOnly_fbClear (s : State) : ChangesOnly [.fb] s s.fbClear :=
  ⟨fun p hp => by cases p <;> simp_all [SamePart], rfl, rfl⟩

theorem changesOnly_drawing (s : State) (fb : Framebuffer) (b : Byte) :
    ChangesOnly [.v, .fb] s ((s.setFb fb).writeV VF b) :=
  ⟨fun p hp => by cases p <;> simp_all [SamePart], rfl, rfl⟩

theorem changesOnly_writeAlu (s : State) (x : Reg) (o : Byte × Option Bool) : ChangesOnly [.v] s (s.writeAlu x o) := by
  rw [writeAlu_eq]; exact changesOnly_v (by simp) s _

theorem changesOnly_loadRegs (s : State) (l : List Reg) : ChangesOnly [.v] s (s.loadRegs l) := by
  rw [(loadRegs_spec s l).2]; exact changesOnly_v (by simp) s _

theorem changesOnly_stack (s : State) (stack : Vector Word 16) (sp : Fin 17) :
    ChangesOnly [.stack] s { s with stack := stack, sp := sp } :=
  ⟨fun p hp => by cases p <;> simp_all [SamePart], rfl, rfl⟩

/-- The parts an instruction may write (R33, R34, R37, R38, R39, R46, R65). Fx0A writes none: its register is written
by the key that ends the wait. -/
def Instr.writtenParts : Instr → List Part
  | .cls => [.fb]
  | .ret | .call _ => [.stack]
  | .jp _ | .seVxKk _ _ | .sneVxKk _ _ | .seVxVy _ _ | .sneVxVy _ _ | .ldVxK _ => []
  | .ldINnn _ | .ldFVx _ => [.i]
  | .drw _ _ _ => [.v, .fb]
  | .ldDtVx _ => [.dt]
  | .ldStVx _ => [.st]
  | .ldBVx _ | .ldMemVx _ => [.mem]
  | .ldVxKk _ _ | .addVxKk _ _ | .ldVxVy _ _ | .orVxVy _ _ | .andVxVy _ _ | .xorVxVy _ _ | .addVxVy _ _ | .subVxVy _ _
  | .shrVx _ _ | .subnVxVy _ _ | .shlVx _ _ | .ldVxDt _ | .ldVxMem _ => [.v]

/-! ## What an instruction may stage -/

/-- The staged writes of `i` touch only its parts, and of the registers only those R33 lists as written. -/
structure Staged (i : Instr) (s u : State) : Prop where
  changes : ChangesOnly (Instr.writtenParts i) s u
  regs : ∀ r, writesReg i r = false → u.readV r = s.readV r

/-- The `pc` values an instruction can give (R126): at most 4 on, a 12-bit target, or the resume of a live entry. -/
def State.NextAllowed (s : State) (q : Nat) : Prop :=
  q ≤ s.pcNat + 4 ∨ q ≤ 0xFFF ∨ ∃ k : Fin 16, k.val < s.sp.val ∧ q = s.resumeAt k

/-- The faults an instruction can raise (R261 to R263): the access of an instruction starts at `I`. -/
def State.FaultAllowed (s : State) (c : HaltCause) : Prop :=
  (c = .stackOverflow ∧ s.sp.val = 16) ∨ (c = .stackUnderflow ∧ s.sp.val = 0) ∨ c = firstBad s.i.toNat

/-- An outcome of `i` on `s` stages, gives and raises only what is allowed. -/
def Result.Allowed (i : Instr) (s : State) : Result → Prop
  | .next q u => s.NextAllowed q ∧ Staged i s u
  | .await _ => True
  | .fault c => s.FaultAllowed c

theorem staged_refl (i : Instr) (s : State) : Staged i s s := ⟨changesOnly_refl _ s, fun _ _ => rfl⟩

theorem allowed_nextInstr {i : Instr} {s u : State} (h : Staged i s u) : (nextInstr s u).Allowed i s :=
  ⟨.inl (by omega), h⟩

theorem allowed_skipIf (i : Instr) (s : State) (b : Bool) : (skipIf s b).Allowed i s := by
  cases b
  · exact allowed_nextInstr (staged_refl i s)
  · exact ⟨.inl (le_refl _), staged_refl i s⟩

theorem allowed_afterRangeCheck {i : Instr} {s : State} {r : Result} (n : Nat) (h : r.Allowed i s) :
    (afterRangeCheck (s.indexAddr 0) n r).Allowed i s := by
  unfold afterRangeCheck
  split
  · next c hc =>
    refine .inr (.inr ?_)
    by_cases hr : InRange (s.indexAddr 0) n
    · rw [rangeCheck_none hr] at hc; cases hc
    · rw [rangeCheck_some hr] at hc; cases hc; rfl
  · exact h

theorem readV_writeFlagged_other (s : State) {x q : Reg} (r : Byte) (f : Bool) (hx : q ≠ x) (hf : q ≠ VF) :
    (s.writeFlagged x r f).readV q = s.readV q :=
  (writeFlagged_flaggedResult s x r f).2.2.2 q hx hf

/-- The registers an ALU output leaves alone: all but the destination, and `VF` where there is a flag. -/
theorem readV_writeAlu_other (s : State) {x q : Reg} (o : Byte × Option Bool) (hx : q ≠ x)
    (hf : o.2 = none ∨ q ≠ VF) : (s.writeAlu x o).readV q = s.readV q := by
  obtain ⟨r, _ | f⟩ := o
  · exact readV_writeV_other s r hx
  · exact readV_writeFlagged_other s r f hx (hf.resolve_left (by simp))

theorem allowed_aluInstr {i : Instr} {fn : AluFn} {x : Reg} {b : Byte} {s : State}
    (hp : Instr.writtenParts i = [.v])
    (hw : ∀ r, writesReg i r = false → r ≠ x ∧ ((alu fn (s.readV x) b).2 = none ∨ r ≠ VF)) :
    (aluInstr fn x b s).Allowed i s :=
  allowed_nextInstr ⟨hp ▸ changesOnly_writeAlu s x _, fun r hr => readV_writeAlu_other s _ (hw r hr).1 (hw r hr).2⟩

theorem allowed_writeV {i : Instr} {x : Reg} {b : Byte} {s : State} (hp : Instr.writtenParts i = [.v])
    (hw : ∀ r, writesReg i r = false → r ≠ x) : (nextInstr s (s.writeV x b)).Allowed i s :=
  allowed_nextInstr ⟨hp ▸ changesOnly_v (by simp) s _, fun r hr => readV_writeV_other s b (hw r hr)⟩

theorem allowed_ret (s : State) :
    Result.Allowed .ret s
      (match s.pop with
       | none => .fault .stackUnderflow
       | some (a, t) => .next (a.toNat + 2) t) := by
  cases h : s.pop with
  | none => exact .inr (.inl ⟨rfl, (pop_eq_none_iff s).mp h⟩)
  | some p =>
    obtain ⟨a, t⟩ := p
    obtain ⟨⟨hk, rfl⟩, hpos, -, ht⟩ := pop_some h
    refine ⟨.inr (.inr ⟨⟨s.sp.val - 1, hk⟩, by simp; omega, rfl⟩), ?_⟩
    rw [ht]
    exact ⟨changesOnly_stack s s.stack t.sp, fun _ _ => rfl⟩

theorem allowed_call (nnn : BitVec 12) (s : State) :
    Result.Allowed (.call nnn) s
      (match s.push s.pc with
       | none => .fault .stackOverflow
       | some t => .next (zext16 nnn).toNat t) := by
  cases h : s.push s.pc with
  | none => exact .inl ⟨rfl, (push_eq_none_iff s _).mp h⟩
  | some t =>
    obtain ⟨-, -, -, ht⟩ := push_some h
    refine ⟨.inr (.inl (by simp; omega)), ?_⟩
    rw [ht]
    exact ⟨changesOnly_stack s t.stack t.sp, fun _ _ => rfl⟩

/-- What any instruction can do: it commits one outcome, and that stages, gives and raises only what is allowed. -/
theorem exec_allowed (i : Instr) (s : State) : ∃ r, exec i s = commit s r ∧ r.Allowed i s := by
  cases i with
  | cls => exact ⟨_, exec_cls s, allowed_nextInstr ⟨changesOnly_fbClear s, fun _ _ => rfl⟩⟩
  | ret => exact ⟨_, exec_ret s, allowed_ret s⟩
  | jp nnn => exact ⟨_, exec_jp nnn s, .inr (.inl (by simp; omega)), staged_refl _ s⟩
  | call nnn => exact ⟨_, exec_call nnn s, allowed_call nnn s⟩
  | seVxKk x kk => exact ⟨_, exec_seVxKk x kk s, allowed_skipIf _ s _⟩
  | sneVxKk x kk => exact ⟨_, exec_sneVxKk x kk s, allowed_skipIf _ s _⟩
  | seVxVy x y => exact ⟨_, exec_seVxVy x y s, allowed_skipIf _ s _⟩
  | sneVxVy x y => exact ⟨_, exec_sneVxVy x y s, allowed_skipIf _ s _⟩
  | ldVxKk x kk => exact ⟨_, exec_ldVxKk x kk s, allowed_writeV rfl (by simp [writesReg])⟩
  | addVxKk x kk => exact ⟨_, exec_addVxKk x kk s, allowed_aluInstr rfl (by simp [writesReg, alu])⟩
  | ldVxVy x y => exact ⟨_, exec_ldVxVy x y s, allowed_aluInstr rfl (by simp [writesReg, alu])⟩
  | orVxVy x y => exact ⟨_, exec_orVxVy x y s, allowed_aluInstr rfl (by simp [writesReg, alu])⟩
  | andVxVy x y => exact ⟨_, exec_andVxVy x y s, allowed_aluInstr rfl (by simp [writesReg, alu])⟩
  | xorVxVy x y => exact ⟨_, exec_xorVxVy x y s, allowed_aluInstr rfl (by simp [writesReg, alu])⟩
  | addVxVy x y => exact ⟨_, exec_addVxVy x y s, allowed_aluInstr rfl (by simp [writesReg, alu])⟩
  | subVxVy x y => exact ⟨_, exec_subVxVy x y s, allowed_aluInstr rfl (by simp [writesReg, alu])⟩
  | shrVx x y => exact ⟨_, exec_shrVx x y s, allowed_aluInstr rfl (by simp [writesReg, alu])⟩
  | subnVxVy x y => exact ⟨_, exec_subnVxVy x y s, allowed_aluInstr rfl (by simp [writesReg, alu])⟩
  | shlVx x y => exact ⟨_, exec_shlVx x y s, allowed_aluInstr rfl (by simp [writesReg, alu])⟩
  | ldINnn nnn => exact ⟨_, exec_ldINnn nnn s, allowed_nextInstr ⟨changesOnly_writeI s _, fun _ _ => rfl⟩⟩
  | drw x y n =>
    refine ⟨_, exec_drw x y n s, allowed_afterRangeCheck _ (allowed_nextInstr ⟨changesOnly_drawing s _ _, ?_⟩)⟩
    exact fun r hr => readV_writeV_other _ _ (by simpa [writesReg] using hr)
  | ldVxDt x => exact ⟨_, exec_ldVxDt x s, allowed_writeV rfl (by simp [writesReg])⟩
  | ldVxK x => exact ⟨_, exec_ldVxK x s, trivial⟩
  | ldDtVx x => exact ⟨_, exec_ldDtVx x s, allowed_nextInstr ⟨changesOnly_writeDt s _, fun _ _ => rfl⟩⟩
  | ldStVx x => exact ⟨_, exec_ldStVx x s, allowed_nextInstr ⟨changesOnly_writeSt s _, fun _ _ => rfl⟩⟩
  | ldFVx x => exact ⟨_, exec_ldFVx x s, allowed_nextInstr ⟨changesOnly_writeI s _, fun _ _ => rfl⟩⟩
  | ldBVx x =>
    exact ⟨_, exec_ldBVx x s,
      allowed_afterRangeCheck _ (allowed_nextInstr ⟨changesOnly_storeBytes s _ _, fun _ _ => rfl⟩)⟩
  | ldMemVx x =>
    exact ⟨_, exec_ldMemVx x s,
      allowed_afterRangeCheck _ (allowed_nextInstr ⟨changesOnly_storeBytes s _ _, fun _ _ => rfl⟩)⟩
  | ldVxMem x =>
    refine ⟨_, exec_ldVxMem x s,
      allowed_afterRangeCheck _ (allowed_nextInstr ⟨changesOnly_loadRegs s _, fun r hr => ?_⟩)⟩
    rw [(loadRegs_spec s _).1, if_neg]
    simpa [mem_regsUpTo, writesReg] using hr

/-- The three ways an instruction ends: it completes with staged writes, waits, or is taken as a halt. -/
theorem exec_cases {i : Instr} {s t : State} (h : exec i s = .next t) :
    (∃ q u, t = u.advance q ∧ s.NextAllowed q ∧ Staged i s u) ∨ (∃ x, t = s.setRs (.awaitingKey x)) ∨
    ∃ c, t = haltedWith s c ∧ s.FaultAllowed c := by
  obtain ⟨r, hr, ha⟩ := exec_allowed i s
  rcases commit_cases (hr.symm.trans h) with ⟨q, u, rfl, rfl⟩ | ⟨x, rfl, rfl⟩ | ⟨c, rfl, rfl⟩
  · exact .inl ⟨q, u, rfl, ha⟩
  · exact .inr (.inl ⟨x, rfl⟩)
  · exact .inr (.inr ⟨c, rfl, ha⟩)

/-! ## Who writes what (O45, O47) -/

/-- Settles O45: the staged registers are those of R33, and neither a commit, a wait nor a halt writes a register. -/
theorem onlyListedRegistersAreWritten : Obligations.OnlyListedRegistersAreWritten := by
  intro i s t r h hne
  by_contra hw
  rcases exec_cases h with ⟨q, u, rfl, -, hu⟩ | ⟨x, rfl⟩ | ⟨c, rfl, -⟩
  · exact hne ((advance_readV u q r).trans (hu.regs r (by simpa using hw)))
  · exact hne rfl
  · exact hne rfl

theorem samePart_advance {p : Part} {s u : State} (h : SamePart p s u) (q : Nat) : SamePart p s (u.advance q) := by
  cases p <;> simpa [SamePart] using h

/-- An executed instruction leaves the fields of every part outside its list as they were. -/
theorem exec_samePart {i : Instr} {s t : State} (h : exec i s = .next t) {p : Part} (hp : p ∉ Instr.writtenParts i) :
    SamePart p s t := by
  rcases exec_cases h with ⟨q, u, rfl, -, hu⟩ | ⟨x, rfl⟩ | ⟨c, rfl, -⟩
  · exact samePart_advance (hu.changes.part p hp) q
  · exact (changesOnly_refl [] s).part p (by simp)
  · exact (changesOnly_refl [] s).part p (by simp)

theorem exec_params {i : Instr} {s t : State} (h : exec i s = .next t) : t.params = s.params := by
  rcases exec_cases h with ⟨q, u, rfl, -, hu⟩ | ⟨x, rfl⟩ | ⟨c, rfl, -⟩
  · exact (advance_params u q).trans hu.changes.params
  · rfl
  · rfl

theorem index_mem_writtenParts (i : Instr) :
    .i ∈ Instr.writtenParts i ↔ (∃ nnn, i = .ldINnn nnn) ∨ ∃ x, i = .ldFVx x := by
  cases i <;> simp [Instr.writtenParts]

theorem dt_mem_writtenParts (i : Instr) : .dt ∈ Instr.writtenParts i ↔ ∃ x, i = .ldDtVx x := by
  cases i <;> simp [Instr.writtenParts]

theorem st_mem_writtenParts (i : Instr) : .st ∈ Instr.writtenParts i ↔ ∃ x, i = .ldStVx x := by
  cases i <;> simp [Instr.writtenParts]

theorem stack_mem_writtenParts (i : Instr) : .stack ∈ Instr.writtenParts i ↔ i = .ret ∨ ∃ nnn, i = .call nnn := by
  cases i <;> simp [Instr.writtenParts]

theorem mem_mem_writtenParts (i : Instr) :
    .mem ∈ Instr.writtenParts i ↔ (∃ x, i = .ldBVx x) ∨ ∃ x, i = .ldMemVx x := by
  cases i <;> simp [Instr.writtenParts]

theorem fb_mem_writtenParts (i : Instr) : .fb ∈ Instr.writtenParts i ↔ i = .cls ∨ ∃ x y n, i = .drw x y n := by
  cases i <;> simp [Instr.writtenParts]

/-- A part that differs after an instruction is one of the instruction's parts. -/
theorem mem_writtenParts_of_changed {i : Instr} {s t : State} (h : exec i s = .next t) {p : Part}
    (hp : ¬SamePart p s t) : p ∈ Instr.writtenParts i := by
  by_contra hn
  exact hp (exec_samePart h hn)

/-- Settles O47: each part is in the lists of its writers only, and every outcome keeps the parameters. -/
theorem eachPartHasItsWriters : Obligations.EachPartHasItsWriters := by
  intro i s t h
  have written {p : Part} (hp : ¬SamePart p s t) : p ∈ Instr.writtenParts i := mem_writtenParts_of_changed h hp
  refine ⟨fun hc => ?_, fun hc => ?_, fun hc => ?_, fun hc => ?_, fun hc => ?_, fun hc => ?_, exec_params h⟩
  · exact (index_mem_writtenParts i).mp (written hc)
  · exact (dt_mem_writtenParts i).mp (written hc)
  · exact (st_mem_writtenParts i).mp (written hc)
  · exact (stack_mem_writtenParts i).mp (written (not_and_or.mpr hc))
  · exact (mem_mem_writtenParts i).mp (written hc)
  · exact (fb_mem_writtenParts i).mp (written hc)

/-! ## Every step keeps the invariant (O49) -/

theorem commit_afterRangeCheck_cases {s t : State} {a n : Nat} {r : Result}
    (h : commit s (afterRangeCheck a n r) = .next t) : commit s r = .next t ∨ t = haltedWith s (firstBad a) := by
  by_cases hr : InRange a n
  · exact .inl ((commit_afterRangeCheck_ok hr r).symm.trans h)
  · rw [commit_afterRangeCheck_fault hr] at h
    cases h
    exact .inr rfl

/-- A checked store keeps memory canonical. -/
theorem storeBytes_commit_mem_wf {s t : State} {a n b : Nat} {bs : List Byte} (hm : s.mem.wf)
    (h : commit s (afterRangeCheck a n (nextInstr s (s.storeBytes b bs))) = .next t) : t.mem.wf := by
  rcases commit_afterRangeCheck_cases h with h | rfl
  · cases h
    rw [advance_mem]
    exact writeBytes_wf hm b bs
  · exact hm

/-- Memory stays canonical: only Fx33 and Fx55 store. -/
theorem exec_mem_wf {i : Instr} {s t : State} (hm : s.mem.wf) (h : exec i s = .next t) : t.mem.wf := by
  by_cases hc : t.mem = s.mem
  · rwa [hc]
  · rcases (mem_mem_writtenParts i).mp (mem_writtenParts_of_changed (p := .mem) h hc) with ⟨x, rfl⟩ | ⟨x, rfl⟩
    · exact storeBytes_commit_mem_wf hm ((exec_ldBVx x s).symm.trans h)
    · exact storeBytes_commit_mem_wf hm ((exec_ldMemVx x s).symm.trans h)

/-- `I` stays at most 0xFFF: Annn loads 12 bits, and Fx29 at most 255 * 5. -/
theorem exec_index_legal {i : Instr} {s t : State} (hi : s.i.toNat ≤ 0xFFF) (h : exec i s = .next t) :
    t.i.toNat ≤ 0xFFF := by
  by_cases hc : t.i = s.i
  · rwa [hc]
  · rcases (index_mem_writtenParts i).mp (mem_writtenParts_of_changed (p := .i) h hc) with ⟨nnn, rfl⟩ | ⟨x, rfl⟩
    · rw [exec_ldINnn, commit_nextInstr] at h
      cases h
      rw [advance_i, writeI_i, BitVec.toNat_setWidth_of_le (by decide)]
      omega
    · rw [exec_ldFVx, commit_nextInstr] at h
      cases h
      rw [advance_i, writeI_i, glyphAddr_toNat]
      omega

/-- Each live stack entry resumes inside memory or at its end (R39, R120). -/
def State.StackLegal (s : State) : Prop := ∀ k : Fin 16, k.val < s.sp.val → s.resumeAt k ≤ 0x1000

theorem stackLegal_of_samePart {s t : State} (h : SamePart .stack s t) (hs : s.StackLegal) : t.StackLegal := by
  obtain ⟨hsp, hst⟩ := h
  intro k hk
  have := hs k (hsp ▸ hk)
  simpa [State.resumeAt, State.stackEntry, hst] using this

theorem pop_stackLegal {s t : State} {a : Word} (hs : s.StackLegal) (h : s.pop = some (a, t)) : t.StackLegal := by
  obtain ⟨-, -, hsp, ht⟩ := pop_some h
  intro k hk
  rw [ht]
  exact hs k (by omega)

theorem push_stackLegal {s t : State} {a : Word} (hs : s.StackLegal) (ha : a.toNat ≤ 0xFFE)
    (h : s.push a = some t) : t.StackLegal := by
  obtain ⟨-, hsp, hentry, -⟩ := push_some h
  intro k hk
  unfold State.resumeAt
  rw [hentry]
  split
  · omega
  · exact hs k (by omega)

/-- Live entries stay legal: 2nnn pushes the address of an instruction that was fetched, 00EE drops one entry. -/
theorem exec_stackLegal {i : Instr} {s t : State} (hs : s.StackLegal) (hpc : s.pc.toNat ≤ 0xFFE)
    (h : exec i s = .next t) : t.StackLegal := by
  by_cases hc : SamePart .stack s t
  · exact stackLegal_of_samePart hc hs
  · rcases (stack_mem_writtenParts i).mp (mem_writtenParts_of_changed h hc) with rfl | ⟨nnn, rfl⟩
    · rw [exec_ret] at h
      cases hp : s.pop with
      | none => rw [hp] at h; cases h; exact hs
      | some p =>
        obtain ⟨a, u⟩ := p
        rw [hp] at h
        cases h
        exact stackLegal_of_samePart (by simp [SamePart]) (pop_stackLegal hs hp)
    · rw [exec_call] at h
      cases hp : s.push s.pc with
      | none => rw [hp] at h; cases h; exact hs
      | some u =>
        rw [hp] at h
        cases h
        exact stackLegal_of_samePart (by simp [SamePart]) (push_stackLegal hs hpc hp)

/-- A completed instruction whose `pc` is at most 0x1002 leaves a legal run state. -/
theorem advance_run_legal {u : State} {q : Nat} (hr : u.rs = .running) (hq : q ≤ 0x1002) :
    (u.advance q).rs.legal (u.advance q).pc.toNat (u.advance q).sp.val := by
  have hpc : (BitVec.ofNat 16 q).toNat = q := by rw [BitVec.toNat_ofNat]; omega
  rw [advance_rs, advance_pc, hpc, hr]
  split
  · exact ⟨‹_›, hq⟩
  · show q ≤ 0xFFF
    omega

theorem nextAllowed_le {s : State} {q : Nat} (hs : s.StackLegal) (hpc : s.pc.toNat ≤ 0xFFE) (h : s.NextAllowed q) :
    q ≤ 0x1002 := by
  rcases h with h | h | ⟨k, hk, rfl⟩
  · unfold State.pcNat at h; omega
  · omega
  · have := hs k hk; omega

theorem faultAllowed_legal {s : State} {c : HaltCause} (hi : s.i.toNat ≤ 0xFFF) (hpc : s.pc.toNat ≤ 0xFFE)
    (h : s.FaultAllowed c) : (RunState.halted c).legal s.pc.toNat s.sp.val := by
  have hpc' : s.pc.toNat ≤ 0xFFF := by omega
  rcases h with ⟨rfl, hsp⟩ | ⟨rfl, hsp⟩ | rfl
  · exact ⟨hpc', hsp⟩
  · exact ⟨hpc', hsp⟩
  · rw [firstBad_of_le hi]; exact ⟨hpc', rfl⟩

theorem exec_run_legal {i : Instr} {s t : State} (hs : Inv s) (hr : s.rs = .running) (hpc : s.pc.toNat ≤ 0xFFE)
    (h : exec i s = .next t) : t.rs.legal t.pc.toNat t.sp.val := by
  rcases exec_cases h with ⟨q, u, rfl, hq, hu⟩ | ⟨x, rfl⟩ | ⟨c, rfl, hc⟩
  · exact advance_run_legal (hu.changes.rs.trans hr) (nextAllowed_le hs.stack_legal hpc hq)
  · show s.pc.toNat ≤ 0xFFF
    omega
  · exact faultAllowed_legal hs.index_legal hpc hc

/-- An instruction that was fetched keeps the invariant. -/
theorem exec_inv {i : Instr} {s t : State} (hs : Inv s) (hr : s.rs = .running) (hpc : s.pc.toNat ≤ 0xFFE)
    (h : exec i s = .next t) : Inv t where
  mem_wf := exec_mem_wf hs.mem_wf h
  index_legal := exec_index_legal hs.index_legal h
  run_legal := exec_run_legal hs hr hpc h
  stack_legal := exec_stackLegal hs.stack_legal hpc h

/-- The invariant is about memory, `I`, the stack, `pc` and `RS`: where the first three are kept, a legal run state is
enough. -/
theorem inv_of_run_legal {s t : State} (hs : Inv s) (hmem : t.mem = s.mem) (hi : t.i = s.i)
    (hstack : SamePart .stack s t) (hrun : t.rs.legal t.pc.toNat t.sp.val) : Inv t where
  mem_wf := hmem ▸ hs.mem_wf
  index_legal := hi ▸ hs.index_legal
  run_legal := hrun
  stack_legal := stackLegal_of_samePart hstack hs.stack_legal

theorem pc_le_of_running {s : State} (hs : Inv s) (hr : s.rs = .running) : s.pc.toNat ≤ 0xFFF := by
  have h := hs.run_legal
  rwa [hr] at h

/-- Settles O49: by the three ways a step in `Running` goes (fetch fault, UNKNOWN word, instruction); in the other run
states a step is the identity. -/
theorem stepKeepsTheInvariant : Obligations.StepKeepsTheInvariant := by
  intro s t hs h
  by_cases hr : s.rs = .running
  · have hpc := pc_le_of_running hs hr
    rcases step_running_cases hr with ⟨-, hstep⟩ | ⟨w, hf, -, hstep⟩ | ⟨w, i, hf, -, hstep⟩
    · rw [hstep] at h
      cases h
      refine inv_of_run_legal hs rfl rfl ⟨rfl, rfl⟩ ?_
      rw [show firstBad s.pcNat = .addressOutOfRange 0x1000 from firstBad_of_le hpc]
      exact ⟨hpc, rfl⟩
    · rw [hstep] at h
      cases h
      refine inv_of_run_legal hs (advance_mem _ _) (advance_i _ _) ⟨advance_sp _ _, advance_stack _ _⟩ ?_
      exact advance_run_legal hr (by unfold State.pcNat; omega)
    · exact exec_inv hs hr ((fetch_eq_ok_iff s w).mp hf).1 (hstep.symm.trans h)
  · rw [step_not_running hr] at h
    cases h
    exact hs

/-! ## Reset (R48, R290, R292) -/

theorem wf_nil : Memory.wf [] := by simp [Memory.wf]

theorem resetByte_above_font {a : Nat} (h : 80 ≤ a) : resetByte a = 0x00 := by
  simp [resetByte, h]

/-- What memory holds after `reset` of an image that fits: the font, zeros, the image from 0x200, zeros. -/
theorem readMem_loadImage (p : Params) {image : List Byte} (hlen : image.length ≤ 0xE00) (a : Nat) :
    (loadImage p image).readMem a =
      if 0x200 ≤ a ∧ a < 0x200 + image.length then image.getD (a - 0x200) 0
      else if a < 80 then p.font.toList.getD a 0 else 0x00 := by
  have hfont : p.font.toList.length = 80 := by simp
  have hwf := writeBytes_wf wf_nil 0 p.font.toList
  show (Memory.writeBytes (Memory.writeBytes [] 0 p.font.toList) 0x200 image).read a = _
  rw [read_writeBytes hwf 0x200 image a (by omega), read_writeBytes wf_nil 0 _ a (by omega), hfont]
  refine if_congr Iff.rfl rfl ?_
  by_cases h : a < 80
  · simp [h]
  · rw [if_neg (by omega), if_neg h]
    exact resetByte_above_font (by omega)

theorem loadImage_mem_wf (p : Params) (image : List Byte) : (loadImage p image).mem.wf :=
  writeBytes_wf (writeBytes_wf wf_nil 0 _) _ image

/-- Settles O51: memory by `readMem_loadImage`, region by region; every other field is that of `State.reset`. -/
theorem resetLoadsFontAndImage : Obligations.ResetLoadsFontAndImage := by
  intro image s hlen
  have hmem := readMem_loadImage s.params hlen
  refine ⟨loadImage s.params image, if_pos hlen, fun a => ?font, fun a h1 h2 => ?gap, fun k hk => ?image,
    fun a h1 h2 => ?rest, fun r => ?regs, rfl, rfl, rfl, rfl, fun px py => ?pixels, rfl, rfl, rfl,
    loadImage_mem_wf s.params image⟩
  case font =>
    rw [hmem, if_neg (by omega), if_pos a.isLt]
    simp [List.getD]
  case gap => rw [hmem, if_neg (by omega), if_neg (by omega)]
  case image => rw [hmem, if_pos (by omega), Nat.add_sub_cancel_left]
  case rest => rw [hmem, if_neg (by omega), if_neg (by omega)]
  case regs => simp [State.readV, loadImage, State.reset]
  case pixels => simp [State.fbRead, loadImage, State.reset, clearFb]

/-- Memory after `reset` of an empty image with the default font is the list with no entry (log 4). -/
theorem loadImage_default_mem : (loadImage defaultParams []).mem = [] := by
  refine wf_ext (loadImage_mem_wf defaultParams []) wf_nil fun a => ?_
  refine (readMem_loadImage defaultParams (by simp) a).trans ?_
  rw [if_neg (by simp)]
  show _ = resetByte a
  split
  · rfl
  · exact (resetByte_above_font (by omega)).symm

theorem reset_eq_loadImage : State.reset = loadImage defaultParams [] := by
  show State.reset = { State.reset with mem := (loadImage defaultParams []).mem, params := defaultParams }
  rw [loadImage_default_mem]
  rfl

/-- Settles O53: the equation is `reset_eq_loadImage`; the sample bytes are values of the default font. -/
theorem resetStateIsTheEmptyImage : Obligations.ResetStateIsTheEmptyImage :=
  ⟨reset_eq_loadImage, rfl, rfl, by decide, by decide, by decide, by decide, by decide⟩

/-- After `reset` of any image the invariant holds: `pc` is 0x200 in `Running`, and no stack entry is live. -/
theorem loadImage_inv (p : Params) (image : List Byte) : Inv (loadImage p image) where
  mem_wf := loadImage_mem_wf p image
  index_legal := Nat.zero_le _
  run_legal := by show 0x200 ≤ 0xFFF; decide
  stack_legal := fun k hk => absurd hk (Nat.not_lt_zero _)

/-- Settles O48: the reset state is a loaded state. -/
theorem resetSatisfiesTheInvariant : Obligations.ResetSatisfiesTheInvariant := by
  unfold Obligations.ResetSatisfiesTheInvariant
  rw [reset_eq_loadImage]
  exact loadImage_inv defaultParams []

/-! ## Every host operation keeps the invariant (O50) -/

/-- A tick changes the two timers alone, if anything. -/
theorem tickOp_inv {s : State} (hs : Inv s) : Inv (tickOp s) := by
  unfold tickOp
  split
  · exact inv_of_run_legal hs rfl rfl ⟨rfl, rfl⟩ hs.run_legal
  · exact inv_of_run_legal hs rfl rfl ⟨rfl, rfl⟩ hs.run_legal
  · exact hs

/-- A key completes the waiting Fx0A, whose `pc` is at most 0xFFF; otherwise it changes nothing. -/
theorem keyOp_inv {s : State} (k : BitVec 4) (hs : Inv s) : Inv (keyOp k s) := by
  unfold keyOp
  split
  · exact hs
  · next x hr =>
    have hpc : s.pc.toNat ≤ 0xFFF := by
      have h := hs.run_legal
      rwa [hr] at h
    refine inv_of_run_legal hs (by simp) (by simp) (by simp [SamePart]) ?_
    exact advance_run_legal (setRs_rs _ _) (by unfold State.pcNat; omega)
  · exact hs

theorem hostOp_inv {op : HostOp} {s t : State} (hs : Inv s) (h : hostOp op s = .next t) : Inv t := by
  cases op with
  | reset image =>
    change resetOp image s = .next t at h
    unfold resetOp at h
    split at h
    · cases h; exact loadImage_inv s.params image
    · cases h
  | step => exact stepKeepsTheInvariant s t hs h
  | tick => cases h; exact tickOp_inv hs
  | key k => cases h; exact keyOp_inv k hs
  | read => cases h; exact hs

theorem reachable_inv {s : State} (h : Reachable s) : Inv s := by
  induction h with
  | load p image _ => exact loadImage_inv p image
  | op op _ ht ih => exact hostOp_inv ih ht

/-- `pc` is above 0xFFF in the normal halt and in no other legal run state, and then at most 0x1002 (R36, R134). -/
theorem legal_pc {rs : RunState} {pc sp : Nat} (h : rs.legal pc sp) :
    pc ≤ 0x1002 ∧ (0xFFF < pc ↔ rs = .halted .endOfMemory) := by
  unfold RunState.legal at h
  split at h <;> simp <;> omega

/-- Settles O50: every reachable state meets the invariant, which gives each clause. -/
theorem reachableStatesAreLegal : Obligations.ReachableStatesAreLegal := by
  intro s h
  have hs := reachable_inv h
  obtain ⟨hbound, hiff⟩ := legal_pc hs.run_legal
  refine ⟨hs.mem_wf, hs.index_legal, hbound, hiff, fun a ha => ?_⟩
  have hrun := hs.run_legal
  rw [ha] at hrun
  exact hrun.2

/-! ## Registers an instruction does not read (O46) -/

/-- Two states that differ in the value of register `r` alone. -/
def AgreeOff (r : Reg) (s t : State) : Prop := ∃ b, t = s.writeV r b

/-- Two outcomes of the same kind, `pc`, register or cause, whose staged states differ in register `r` alone. -/
inductive Result.AgreeOff (r : Reg) : Result → Result → Prop where
  | next (q : Nat) {u u' : State} (h : Machine.AgreeOff r u u') : Result.AgreeOff r (.next q u) (.next q u')
  | await (x : Reg) : Result.AgreeOff r (.await x) (.await x)
  | fault (c : HaltCause) : Result.AgreeOff r (.fault c) (.fault c)

theorem agreeOff_readV {r q : Reg} {s t : State} (h : AgreeOff r s t) (hq : q ≠ r) : t.readV q = s.readV q := by
  obtain ⟨b, rfl⟩ := h
  exact readV_writeV_other s b hq

/-- Writing the same byte to a register of both states keeps the agreement, whether it is `r` or not. -/
theorem agreeOff_writeV {r : Reg} {s t : State} (h : AgreeOff r s t) (x : Reg) (c : Byte) :
    AgreeOff r (s.writeV x c) (t.writeV x c) := by
  obtain ⟨b, rfl⟩ := h
  by_cases hx : x = r
  · subst hx
    exact ⟨c, by simp [State.writeV]⟩
  · refine ⟨b, ?_⟩
    have hv : r.val ≠ x.val := fun e => hx (Fin.ext e.symm)
    simp [State.writeV, Vector.set_comm _ _ hv]

theorem agreeOff_writeFlagged {r : Reg} {s t : State} (h : AgreeOff r s t) (x : Reg) (c : Byte) (f : Bool) :
    AgreeOff r (s.writeFlagged x c f) (t.writeFlagged x c f) := by
  have hp : t.params = s.params := by obtain ⟨b, rfl⟩ := h; rfl
  unfold State.writeFlagged
  rw [hp]
  split
  · exact agreeOff_writeV (agreeOff_writeV h _ _) _ _
  · exact agreeOff_writeV (agreeOff_writeV h _ _) _ _

theorem agreeOff_writeAlu {r : Reg} {s t : State} (h : AgreeOff r s t) (x : Reg) (o : Byte × Option Bool) :
    AgreeOff r (s.writeAlu x o) (t.writeAlu x o) := by
  obtain ⟨c, _ | f⟩ := o
  · exact agreeOff_writeV h x c
  · exact agreeOff_writeFlagged h x c f

/-- The registers loaded come from memory at `I`, which both states share. -/
theorem agreeOff_loadRegs {r : Reg} {s t : State} (h : AgreeOff r s t) (l : List Reg) :
    AgreeOff r (s.loadRegs l) (t.loadRegs l) := by
  induction l generalizing s t with
  | nil => exact h
  | cons k l ih =>
    have hm : t.readMem (t.indexAddr k.val) = s.readMem (s.indexAddr k.val) := by obtain ⟨b, rfl⟩ := h; rfl
    rw [State.loadRegs, State.loadRegs, hm]
    exact ih (agreeOff_writeV h k _)

theorem agreeOff_advance {r : Reg} {s t : State} (h : AgreeOff r s t) (q : Nat) :
    AgreeOff r (s.advance q) (t.advance q) := by
  obtain ⟨b, rfl⟩ := h
  refine ⟨b, ?_⟩
  unfold State.advance
  split <;> rfl

/-- Agreeing outcomes commit to agreeing states. -/
theorem agreeOff_commit {r : Reg} {s t : State} {a a' : Result} (h : AgreeOff r s t) (ha : a.AgreeOff r a') :
    ∃ u u', commit s a = .next u ∧ commit t a' = .next u' ∧ AgreeOff r u u' := by
  cases ha with
  | next q hu => exact ⟨_, _, rfl, rfl, agreeOff_advance hu q⟩
  | await x => obtain ⟨b, rfl⟩ := h; exact ⟨_, _, rfl, rfl, b, rfl⟩
  | fault c => obtain ⟨b, rfl⟩ := h; exact ⟨_, _, rfl, rfl, b, rfl⟩

/-- The block `V[0]..V[x]` is the same when every register up to `x` agrees. -/
theorem regBlock_congr {s t : State} {x : Reg} (hreads : ∀ k, k ≤ x → t.readV k = s.readV k) :
    t.regBlock x = s.regBlock x :=
  List.map_congr_left fun k hk => hreads k ((mem_regsUpTo x k).mp hk)

theorem pop_writeV (s : State) (r : Reg) (b : Byte) :
    (s.writeV r b).pop = s.pop.map fun p => (p.1, p.2.writeV r b) := by
  by_cases h : 0 < s.sp.val
  · rw [State.pop, State.pop, dif_pos h, dif_pos (by exact h)]; rfl
  · rw [State.pop, State.pop, dif_neg h, dif_neg (by exact h)]; rfl

theorem push_writeV (s : State) (r : Reg) (b : Byte) (a : Word) :
    (s.writeV r b).push a = (s.push a).map fun u => u.writeV r b := by
  by_cases h : s.sp.val < 16
  · rw [State.push, State.push, dif_pos h, dif_pos (by exact h)]; rfl
  · rw [State.push, State.push, dif_neg h, dif_neg (by exact h)]; rfl

section
variable {r : Reg} {s t : State} (h : AgreeOff r s t)
include h

theorem agreeOff_nextInstr {u u' : State} (hu : AgreeOff r u u') :
    (nextInstr s u).AgreeOff r (nextInstr t u') := by
  obtain ⟨b, rfl⟩ := h
  exact .next _ hu

theorem agreeOff_skipIf {c c' : Bool} (hc : c' = c) : (skipIf s c).AgreeOff r (skipIf t c') := by
  subst hc
  cases c'
  · exact agreeOff_nextInstr h h
  · obtain ⟨b, rfl⟩ := h
    exact .next _ ⟨b, rfl⟩

theorem agreeOff_afterRangeCheck {a a' : Result} (n : Nat) (ha : a.AgreeOff r a') :
    (afterRangeCheck (s.indexAddr 0) n a).AgreeOff r (afterRangeCheck (t.indexAddr 0) n a') := by
  have hi : t.indexAddr 0 = s.indexAddr 0 := by obtain ⟨b, rfl⟩ := h; rfl
  unfold afterRangeCheck
  rw [hi]
  split
  · exact .fault _
  · exact ha

/-- The outcomes of an ALU instruction agree when the ALU's outputs do. -/
theorem agreeOff_aluInstr {fn : AluFn} {x : Reg} {b b' : Byte} (ho : alu fn (t.readV x) b' = alu fn (s.readV x) b) :
    (aluInstr fn x b s).AgreeOff r (aluInstr fn x b' t) := by
  unfold aluInstr
  rw [ho]
  exact agreeOff_nextInstr h (agreeOff_writeAlu h x _)

/-- The ALU's outputs agree when both operands are registers that agree. -/
theorem agreeOff_aluVxVy {x y : Reg} (fn : AluFn) (hx : t.readV x = s.readV x) (hy : t.readV y = s.readV y) :
    (aluInstr fn x (s.readV y) s).AgreeOff r (aluInstr fn x (t.readV y) t) :=
  agreeOff_aluInstr h (by rw [hx, hy])

theorem agreeOff_ret :
    Result.AgreeOff r
      (match s.pop with
       | none => .fault .stackUnderflow
       | some (a, u) => .next (a.toNat + 2) u)
      (match t.pop with
       | none => .fault .stackUnderflow
       | some (a, u) => .next (a.toNat + 2) u) := by
  obtain ⟨b, rfl⟩ := h
  rw [pop_writeV]
  cases s.pop with
  | none => exact .fault _
  | some p => exact .next _ ⟨b, rfl⟩

theorem agreeOff_call (nnn : BitVec 12) :
    Result.AgreeOff r
      (match s.push s.pc with
       | none => .fault .stackOverflow
       | some u => .next (zext16 nnn).toNat u)
      (match t.push t.pc with
       | none => .fault .stackOverflow
       | some u => .next (zext16 nnn).toNat u) := by
  obtain ⟨b, rfl⟩ := h
  rw [push_writeV, writeV_pc]
  cases s.push s.pc with
  | none => exact .fault _
  | some u => exact .next _ ⟨b, rfl⟩

/-- A sprite is drawn alike when its two coordinate registers agree: its bytes and the framebuffer are shared. -/
theorem agreeOff_drawSprite {x y : Reg} (hx : t.readV x = s.readV x) (hy : t.readV y = s.readV y) (n : BitVec 4) :
    drawSprite x y n t = drawSprite x y n s := by
  unfold drawSprite
  rw [hx, hy]
  obtain ⟨b, rfl⟩ := h
  rfl

theorem agreeOff_drawing (fb : Framebuffer) (c : Byte) :
    AgreeOff r ((s.setFb fb).writeV VF c) ((t.setFb fb).writeV VF c) := by
  refine agreeOff_writeV ?_ VF c
  obtain ⟨b, rfl⟩ := h
  exact ⟨b, rfl⟩

/-- A store at `I` of the same bytes. -/
theorem agreeOff_storeBytes (bs : List Byte) :
    AgreeOff r (s.storeBytes (s.indexAddr 0) bs) (t.storeBytes (t.indexAddr 0) bs) := by
  obtain ⟨b, rfl⟩ := h
  exact ⟨b, rfl⟩

theorem agreeOff_writeI (w : Word) : AgreeOff r (s.writeI w) (t.writeI w) := by
  obtain ⟨b, rfl⟩ := h; exact ⟨b, rfl⟩

theorem agreeOff_writeDt (c : Byte) : AgreeOff r (s.writeDt c) (t.writeDt c) := by
  obtain ⟨b, rfl⟩ := h; exact ⟨b, rfl⟩

theorem agreeOff_writeSt (c : Byte) : AgreeOff r (s.writeSt c) (t.writeSt c) := by
  obtain ⟨b, rfl⟩ := h; exact ⟨b, rfl⟩

theorem agreeOff_fbClear : AgreeOff r s.fbClear t.fbClear := by
  obtain ⟨b, rfl⟩ := h; exact ⟨b, rfl⟩

theorem agreeOff_dt : t.dt = s.dt := by
  obtain ⟨b, rfl⟩ := h; rfl

/-- On two states that differ in a register `i` does not read, `i` has agreeing outcomes. -/
theorem exec_agreeOff {i : Instr} (hi : readsReg i r = false) :
    ∃ a a', exec i s = commit s a ∧ exec i t = commit t a' ∧ a.AgreeOff r a' := by
  have reads (q : Reg) (hq : readsReg i q = true) : t.readV q = s.readV q :=
    agreeOff_readV h fun e => by rw [e, hi] at hq; cases hq
  cases i with
  | cls => exact ⟨_, _, exec_cls s, exec_cls t, agreeOff_nextInstr h (agreeOff_fbClear h)⟩
  | ret => exact ⟨_, _, exec_ret s, exec_ret t, agreeOff_ret h⟩
  | jp nnn => exact ⟨_, _, exec_jp nnn s, exec_jp nnn t, .next _ h⟩
  | call nnn => exact ⟨_, _, exec_call nnn s, exec_call nnn t, agreeOff_call h nnn⟩
  | seVxKk x kk =>
    have hx := reads x (by simp [readsReg])
    exact ⟨_, _, exec_seVxKk x kk s, exec_seVxKk x kk t, agreeOff_skipIf h (by rw [hx])⟩
  | sneVxKk x kk =>
    have hx := reads x (by simp [readsReg])
    exact ⟨_, _, exec_sneVxKk x kk s, exec_sneVxKk x kk t, agreeOff_skipIf h (by rw [hx])⟩
  | seVxVy x y =>
    have hx := reads x (by simp [readsReg])
    have hy := reads y (by simp [readsReg])
    exact ⟨_, _, exec_seVxVy x y s, exec_seVxVy x y t, agreeOff_skipIf h (by rw [hx, hy])⟩
  | sneVxVy x y =>
    have hx := reads x (by simp [readsReg])
    have hy := reads y (by simp [readsReg])
    exact ⟨_, _, exec_sneVxVy x y s, exec_sneVxVy x y t, agreeOff_skipIf h (by rw [hx, hy])⟩
  | ldVxKk x kk =>
    exact ⟨_, _, exec_ldVxKk x kk s, exec_ldVxKk x kk t, agreeOff_nextInstr h (agreeOff_writeV h x kk)⟩
  | addVxKk x kk =>
    have hx := reads x (by simp [readsReg])
    exact ⟨_, _, exec_addVxKk x kk s, exec_addVxKk x kk t, agreeOff_aluInstr h (by rw [hx])⟩
  | ldVxVy x y =>
    have hy := reads y (by simp [readsReg])
    exact ⟨_, _, exec_ldVxVy x y s, exec_ldVxVy x y t, agreeOff_aluInstr h (by rw [hy]; rfl)⟩
  | orVxVy x y =>
    exact ⟨_, _, exec_orVxVy x y s, exec_orVxVy x y t, agreeOff_aluVxVy h .or (reads x (by simp [readsReg]))
      (reads y (by simp [readsReg]))⟩
  | andVxVy x y =>
    exact ⟨_, _, exec_andVxVy x y s, exec_andVxVy x y t, agreeOff_aluVxVy h .and (reads x (by simp [readsReg]))
      (reads y (by simp [readsReg]))⟩
  | xorVxVy x y =>
    exact ⟨_, _, exec_xorVxVy x y s, exec_xorVxVy x y t, agreeOff_aluVxVy h .xor (reads x (by simp [readsReg]))
      (reads y (by simp [readsReg]))⟩
  | addVxVy x y =>
    exact ⟨_, _, exec_addVxVy x y s, exec_addVxVy x y t, agreeOff_aluVxVy h .add (reads x (by simp [readsReg]))
      (reads y (by simp [readsReg]))⟩
  | subVxVy x y =>
    exact ⟨_, _, exec_subVxVy x y s, exec_subVxVy x y t, agreeOff_aluVxVy h .sub (reads x (by simp [readsReg]))
      (reads y (by simp [readsReg]))⟩
  | shrVx x y =>
    have hx := reads x (by simp [readsReg])
    exact ⟨_, _, exec_shrVx x y s, exec_shrVx x y t, agreeOff_aluInstr h (by rw [hx]; rfl)⟩
  | subnVxVy x y =>
    exact ⟨_, _, exec_subnVxVy x y s, exec_subnVxVy x y t, agreeOff_aluVxVy h .subn (reads x (by simp [readsReg]))
      (reads y (by simp [readsReg]))⟩
  | shlVx x y =>
    have hx := reads x (by simp [readsReg])
    exact ⟨_, _, exec_shlVx x y s, exec_shlVx x y t, agreeOff_aluInstr h (by rw [hx]; rfl)⟩
  | ldINnn nnn => exact ⟨_, _, exec_ldINnn nnn s, exec_ldINnn nnn t, agreeOff_nextInstr h (agreeOff_writeI h _)⟩
  | drw x y n =>
    have hd := agreeOff_drawSprite h (reads x (by simp [readsReg])) (reads y (by simp [readsReg])) n
    refine ⟨_, _, exec_drw x y n s, exec_drw x y n t, ?_⟩
    rw [hd]
    exact agreeOff_afterRangeCheck h _ (agreeOff_nextInstr h (agreeOff_drawing h _ _))
  | ldVxDt x =>
    refine ⟨_, _, exec_ldVxDt x s, exec_ldVxDt x t, ?_⟩
    rw [agreeOff_dt h]
    exact agreeOff_nextInstr h (agreeOff_writeV h x _)
  | ldVxK x => exact ⟨_, _, exec_ldVxK x s, exec_ldVxK x t, .await x⟩
  | ldDtVx x =>
    have hx := reads x (by simp [readsReg])
    exact ⟨_, _, exec_ldDtVx x s, exec_ldDtVx x t, by rw [hx]; exact agreeOff_nextInstr h (agreeOff_writeDt h _)⟩
  | ldStVx x =>
    have hx := reads x (by simp [readsReg])
    exact ⟨_, _, exec_ldStVx x s, exec_ldStVx x t, by rw [hx]; exact agreeOff_nextInstr h (agreeOff_writeSt h _)⟩
  | ldFVx x =>
    have hx := reads x (by simp [readsReg])
    exact ⟨_, _, exec_ldFVx x s, exec_ldFVx x t, by rw [hx]; exact agreeOff_nextInstr h (agreeOff_writeI h _)⟩
  | ldBVx x =>
    refine ⟨_, _, exec_ldBVx x s, exec_ldBVx x t, ?_⟩
    rw [reads x (by simp [readsReg])]
    exact agreeOff_afterRangeCheck h _ (agreeOff_nextInstr h (agreeOff_storeBytes h _))
  | ldMemVx x =>
    refine ⟨_, _, exec_ldMemVx x s, exec_ldMemVx x t, ?_⟩
    rw [regBlock_congr fun k hk => reads k (by simpa [readsReg] using hk)]
    exact agreeOff_afterRangeCheck h _ (agreeOff_nextInstr h (agreeOff_storeBytes h _))
  | ldVxMem x =>
    exact ⟨_, _, exec_ldVxMem x s, exec_ldVxMem x t,
      agreeOff_afterRangeCheck h _ (agreeOff_nextInstr h (agreeOff_loadRegs h _))⟩

end

/-- Settles O46: agreeing outcomes commit to states that differ in the unread register alone. -/
theorem unlistedRegistersAreNotRead : Obligations.UnlistedRegistersAreNotRead := by
  intro i s r b hi
  have h : AgreeOff r s (s.writeV r b) := ⟨b, rfl⟩
  obtain ⟨a, a', hs, ht, ha⟩ := exec_agreeOff h hi
  obtain ⟨t, _, hct, hcu, c, rfl⟩ := agreeOff_commit h ha
  exact ⟨t, t.writeV r c, hs.trans hct, ht.trans hcu, fun q hq => readV_writeV_other t c hq, writeV_frame t r c,
    rfl, rfl⟩

end Sys2Proof.Machine

namespace Sys2Proof.Machine

/-! # Proofs about memory (20_memory.md)

What Fx55 stores is said once, register by register; a later fetch sees memory alone, so it reads those bytes. -/

/-- An Fx55 whose whole block exists stores it and completes (R203). -/
theorem exec_ldMemVx_of_fits {x : Reg} {s : State} (hfit : s.i.toNat + x.val ≤ 0xFFF) :
    exec (.ldMemVx x) s = .next ((s.storeBytes s.i.toNat (s.regBlock x)).advance (s.pcNat + 2)) := by
  have hrange : InRange (s.indexAddr 0) (x.val + 1) := .inr (by unfold State.indexAddr; omega)
  rw [exec_ldMemVx, commit_afterRangeCheck_ok hrange]
  rfl

/-- The byte stored for `V[k]` stands at `I + k` (R203). -/
theorem readMem_storeBytes_regBlock {x k : Reg} {s : State} (hm : s.mem.wf) (hfit : s.i.toNat + x.val ≤ 0xFFF)
    (hk : k ≤ x) : (s.storeBytes s.i.toNat (s.regBlock x)).readMem (s.i.toNat + k.val) = s.readV k := by
  have hlen := regBlock_length s x
  have hkx : k.val ≤ x.val := hk
  rw [readMem_storeBytes hm _ _ _ (by omega), if_pos (by omega), Nat.add_sub_cancel_left, regBlock_getD s x k hk]

/-- After an Fx55 that does not fault, every state with that memory holds `V[k]` at `I + k` (R203). -/
theorem readMem_of_exec_ldMemVx {x k : Reg} {s t u : State} (hm : s.mem.wf) (hfit : s.i.toNat + x.val ≤ 0xFFF)
    (h : exec (.ldMemVx x) s = .next t) (hu : u.mem = t.mem) (hk : k ≤ x) :
    u.readMem (s.i.toNat + k.val) = s.readV k := by
  rw [exec_ldMemVx_of_fits hfit] at h
  cases h
  rw [← readMem_storeBytes_regBlock hm hfit hk, State.readMem, State.readMem, hu, advance_mem]

/-- Settles O34: the fetch reads the two bytes at `I + k` and `I + k + 1`, which hold `V[k]` and `V[k + 1]`. -/
theorem storedBytesAreFetchedNext : Obligations.StoredBytesAreFetchedNext := by
  intro x k j s t u hm hfit h hk hj hu hpc
  have hkx : k.val < x.val := hk
  have hjx : j ≤ x := Fin.le_def.mpr (by omega)
  have hpc : u.pcNat = s.i.toNat + k.val := hpc
  have hnext : s.i.toNat + k.val + 1 = s.i.toNat + j.val := by omega
  rw [fetch_ok (by omega), hpc, hnext, readMem_of_exec_ldMemVx hm hfit h hu hk.le,
    readMem_of_exec_ldMemVx hm hfit h hu hjx]

end Sys2Proof.Machine

namespace Sys2Proof

/-! # Proofs about the encoding (30_encoding.md)

The field views are said as integers, and what they are of an encoded form; a row of R97 then matches a word exactly
when the word has the row's fields. Decoding the encoding and encoding what was decoded follow from the same lemmas. -/

/-! ## The field views as integers (R91) -/

theorem toNat_familyOf (w : Word) : (familyOf w).toNat = w.toNat / 0x1000 := by
  obtain ⟨f, x, y, n, rfl⟩ := exists_wordOf w
  rw [familyOf_wordOf, toNat_wordOf]
  omega

theorem val_xOf (w : Word) : (xOf w).val = w.toNat / 0x100 % 0x10 := by
  simp [xOf, Nat.shiftRight_eq_div_pow]

theorem val_yOf (w : Word) : (yOf w).val = w.toNat / 0x10 % 0x10 := by
  simp [yOf, Nat.shiftRight_eq_div_pow]

theorem toNat_nOf (w : Word) : (nOf w).toNat = w.toNat % 0x10 := by
  simp [nOf]

theorem toNat_kkOf (w : Word) : (kkOf w).toNat = w.toNat % 0x100 := by
  simp [kkOf]

theorem toNat_nnnOf (w : Word) : (nnnOf w).toNat = w.toNat % 0x1000 := by
  simp [nnnOf]

/-- Settles O1: the field views as integers, and the record by its definition. -/
theorem fieldViewsAreTheBitRanges : Obligations.FieldViewsAreTheBitRanges := fun w =>
  ⟨toNat_familyOf w, val_xOf w, val_yOf w, toNat_nOf w, toNat_kkOf w, toNat_nnnOf w, rfl⟩

theorem familyOf_eq_iff {w : Word} {f : BitVec 4} : familyOf w = f ↔ w.toNat / 0x1000 = f.toNat := by
  rw [← BitVec.toNat_inj, toNat_familyOf]

theorem nOf_eq_iff {w : Word} {n : BitVec 4} : nOf w = n ↔ w.toNat % 0x10 = n.toNat := by
  rw [← BitVec.toNat_inj, toNat_nOf]

theorem kkOf_eq_iff {w : Word} {kk : Byte} : kkOf w = kk ↔ w.toNat % 0x100 = kk.toNat := by
  rw [← BitVec.toNat_inj, toNat_kkOf]

theorem nnnOf_eq_iff {w : Word} {nnn : BitVec 12} : nnnOf w = nnn ↔ w.toNat % 0x1000 = nnn.toNat := by
  rw [← BitVec.toNat_inj, toNat_nnnOf]

/-! ## The forms of the encoder and the fields of a word -/

@[simp] theorem familyOf_formXyn (f : BitVec 4) (x y : Reg) (n : BitVec 4) : familyOf (formXyn f x y n) = f := by
  rw [formXyn_eq, familyOf_wordOf]

@[simp] theorem xOf_formXyn (f : BitVec 4) (x y : Reg) (n : BitVec 4) : xOf (formXyn f x y n) = x := by
  rw [formXyn_eq, xOf_wordOf, regField_toFin]

@[simp] theorem yOf_formXyn (f : BitVec 4) (x y : Reg) (n : BitVec 4) : yOf (formXyn f x y n) = y := by
  rw [formXyn_eq, yOf_wordOf, regField_toFin]

@[simp] theorem nOf_formXyn (f : BitVec 4) (x y : Reg) (n : BitVec 4) : nOf (formXyn f x y n) = n := by
  rw [formXyn_eq, nOf_wordOf]

@[simp] theorem familyOf_formXkk (f : BitVec 4) (x : Reg) (kk : Byte) : familyOf (formXkk f x kk) = f := by
  rw [formXkk_eq, familyOf_wordOf]

@[simp] theorem xOf_formXkk (f : BitVec 4) (x : Reg) (kk : Byte) : xOf (formXkk f x kk) = x := by
  rw [formXkk_eq, xOf_wordOf, regField_toFin]

@[simp] theorem kkOf_formXkk (f : BitVec 4) (x : Reg) (kk : Byte) : kkOf (formXkk f x kk) = kk := by
  rw [formXkk_eq, kkOf_wordOf, byte_of_nibbles]

@[simp] theorem familyOf_formNnn (f : BitVec 4) (nnn : BitVec 12) : familyOf (f ++ nnn) = f := by
  rw [formNnn_eq, familyOf_wordOf]

@[simp] theorem nnnOf_formNnn (f : BitVec 4) (nnn : BitVec 12) : nnnOf (f ++ nnn) = nnn := by
  rw [formNnn_eq, nnnOf_wordOf, addr_of_nibbles]

/-- A word is the form `xyn` of its own fields. -/
theorem formXyn_of_fields {w : Word} {f n : BitVec 4} (hf : familyOf w = f) (hn : nOf w = n) :
    formXyn f (xOf w) (yOf w) n = w := by
  subst hf hn
  exact (word_eq_wordOf w).symm

/-- A word is the form `nnn` of its own fields. -/
theorem formNnn_of_fields {w : Word} {f : BitVec 4} {nnn : BitVec 12} (hf : familyOf w = f) (hnnn : nnnOf w = nnn) :
    (f ++ nnn : Word) = w := by
  subst hf hnnn
  exact (BitVec.extractLsb'_append_extractLsb'_eq_extractLsb' (by rfl)).trans BitVec.extractLsb'_eq_self

/-- A word is the form `xkk` of its own fields. -/
theorem formXkk_of_fields {w : Word} {f : BitVec 4} {kk : Byte} (hf : familyOf w = f) (hkk : kkOf w = kk) :
    formXkk f (xOf w) kk = w := by
  subst hf hkk
  have high : familyOf w ++ regField (xOf w) = w.extractLsb' 8 8 :=
    BitVec.extractLsb'_append_extractLsb'_eq_extractLsb' (by rfl)
  rw [formXkk, high]
  exact wordOfBytes_bytesOfWord w

/-! ## Decoding an encoded instruction -/

@[simp] theorem selectOp_encode (i : Instr) : selectOp (encode i) = i.op := by
  cases i with
  | cls | ret => rfl
  | _ => simp [encode, selectOp, Instr.op]

@[simp] theorem decodeWord_encode (i : Instr) : decodeWord (encode i) = some i := by
  unfold decodeWord Decoded.instr? decodeFields
  simp only [selectOp_encode]
  cases i <;> simp [Instr.op, encode]

/-- What `decode` reads: the two bytes of a word that is an instruction, and the rest (R90, R120). -/
theorem decode_eq_ok_iff {bytes rest : List Byte} {i : Instr} :
    decode bytes = .ok (i, rest) ↔ ∃ w, decodeWord w = some i ∧ bytes = bytesOfWord w ++ rest := by
  constructor
  · intro h
    match bytes with
    | [] | [_] => cases h
    | hi :: lo :: tail =>
      rw [decode_cons] at h
      refine ⟨wordOfBytes hi lo, ?_⟩
      rw [bytesOfWord_wordOfBytes]
      split at h
      next hd => cases h; exact ⟨hd, rfl⟩
      next => cases h
  · rintro ⟨w, hw, rfl⟩
    simp only [bytesOfWord, List.cons_append, List.nil_append, decode_cons, wordOfBytes_bytesOfWord, hw]

/-- Settles O4: the fields of the encoded word select the instruction and give its operands back. -/
theorem decodeOfEncodeIsTheInstruction : Obligations.DecodeOfEncodeIsTheInstruction := fun i _ =>
  ⟨decodeWord_encode i, decode_eq_ok_iff.mpr ⟨encode i, decodeWord_encode i, rfl⟩⟩

/-! ## Encoding a decoded word -/

/-- The word of the instruction read: each family has one form, and the word has the form's fields. -/
theorem encode_of_decodeWord {w : Word} {i : Instr} (h : decodeWord w = some i) : encode i = w := by
  unfold decodeWord decodeFields Decoded.instr? at h
  simp only at h
  generalize hop : selectOp w = op at h
  unfold selectOp at hop
  split at hop
  case h_1 _ hf => split at hop <;> subst hop <;> cases h <;> exact formNnn_of_fields hf ‹_›
  case h_2 _ hf | h_3 _ hf | h_11 _ hf => subst hop; cases h; exact formNnn_of_fields hf rfl
  case h_4 _ hf | h_5 _ hf | h_7 _ hf | h_8 _ hf => subst hop; cases h; exact formXkk_of_fields hf rfl
  case h_6 _ hf | h_9 _ hf | h_10 _ hf =>
    split at hop <;> subst hop <;> cases h <;> exact formXyn_of_fields hf ‹_›
  case h_12 _ hf => subst hop; cases h; exact formXyn_of_fields hf rfl
  case h_13 _ hf => split at hop <;> subst hop <;> cases h <;> exact formXkk_of_fields hf ‹_›
  case h_14 => subst hop; cases h

/-- Settles O5: the word has the fields of the form its instruction is encoded in. -/
theorem encodeOfDecodeIsTheWord : Obligations.EncodeOfDecodeIsTheWord := by
  refine ⟨fun w i => encode_of_decodeWord, fun bytes rest i h => ?_⟩
  obtain ⟨w, hw, rfl⟩ := decode_eq_ok_iff.mp h
  rw [encode_of_decodeWord hw]

/-! ## The rows of the opcode table (R97) -/

theorem op_of_instr? {d : Decoded} {i : Instr} (h : d.instr? = some i) : i.op = d.op := by
  unfold Decoded.instr? at h
  split at h <;> cases h <;> simp_all [Instr.op]

theorem instr?_eq_none_iff {d : Decoded} : d.instr? = none ↔ d.op = .unknown := by
  unfold Decoded.instr?
  split <;> simp_all

theorem op_of_decodeWord {w : Word} {i : Instr} (h : decodeWord w = some i) : i.op = selectOp w :=
  op_of_instr? h

theorem decodeWord_eq_none_iff {w : Word} : decodeWord w = none ↔ selectOp w = .unknown :=
  instr?_eq_none_iff

/-- A mask 0xF000 compares the family. -/
theorem and_F000_eq_iff {w p : Word} (hp : p &&& 0xF000#16 = p) :
    w &&& 0xF000#16 = p ↔ familyOf w = p.extractLsb' 12 4 := by
  have mask (v : Word) : v &&& 0xF000#16 = wordOf (familyOf v) 0 0 0 := by
    obtain ⟨f, x, y, n, rfl⟩ := exists_wordOf v
    rw [wordOf_and_F000, familyOf_wordOf]
  constructor
  · intro h
    rw [← h, mask]
    exact (familyOf_wordOf _ _ _ _).symm
  · intro hf
    rw [← hp, mask w, mask p, hf]
    rfl

/-- A mask 0xF00F compares the family and `n`. -/
theorem and_F00F_eq_iff {w p : Word} (hp : p &&& 0xF00F#16 = p) :
    w &&& 0xF00F#16 = p ↔ familyOf w = p.extractLsb' 12 4 ∧ nOf w = p.extractLsb' 0 4 := by
  have mask (v : Word) : v &&& 0xF00F#16 = formXyn (familyOf v) 0 0 (nOf v) := by
    obtain ⟨f, x, y, n, rfl⟩ := exists_wordOf v
    rw [wordOf_and_F00F, familyOf_wordOf, nOf_wordOf]
    rfl
  constructor
  · intro h
    rw [← h, mask]
    exact ⟨(familyOf_formXyn _ _ _ _).symm, (nOf_formXyn _ _ _ _).symm⟩
  · rintro ⟨hf, hn⟩
    rw [← hp, mask w, mask p, hf, hn]
    rfl

/-- A mask 0xF0FF compares the family and `kk`. -/
theorem and_F0FF_eq_iff {w p : Word} (hp : p &&& 0xF0FF#16 = p) :
    w &&& 0xF0FF#16 = p ↔ familyOf w = p.extractLsb' 12 4 ∧ kkOf w = p.extractLsb' 0 8 := by
  have mask (v : Word) : v &&& 0xF0FF#16 = formXkk (familyOf v) 0 (kkOf v) := by
    conv_lhs => rw [← formXkk_of_fields (w := v) rfl rfl]
    rw [formXkk_eq, formXkk_eq, wordOf_and_F0FF]
    rfl
  constructor
  · intro h
    rw [← h, mask]
    exact ⟨(familyOf_formXkk _ _ _).symm, (kkOf_formXkk _ _ _).symm⟩
  · rintro ⟨hf, hkk⟩
    rw [← hp, mask w, mask p, hf, hkk]
    rfl

/-- A mask 0xFFFF compares the family and `nnn`. -/
theorem and_FFFF_eq_iff {w p : Word} :
    w &&& 0xFFFF#16 = p ↔ familyOf w = p.extractLsb' 12 4 ∧ nnnOf w = p.extractLsb' 0 12 := by
  rw [and_FFFF]
  exact ⟨fun h => h ▸ ⟨rfl, rfl⟩, fun ⟨hf, hnnn⟩ => (formNnn_of_fields hf hnnn).symm.trans (formNnn_of_fields rfl rfl)⟩

/-- A word that matches a row has the fields by which the opcode map selects the row's operation. -/
theorem selectOp_of_row {w : Word} : ∀ row ∈ opcodeRows, w &&& row.mask = row.pattern → selectOp w = row.op := by
  simp only [opcodeRows, List.cons_append, List.nil_append, List.forall_mem_cons, List.not_mem_nil, false_imp_iff,
    implies_true, and_true]
  and_intros
  all_goals
    intro fields
    simp [and_FFFF_eq_iff, and_F000_eq_iff, and_F00F_eq_iff, and_F0FF_eq_iff] at fields
    simp [selectOp, fields]

theorem encode_matches_row (i : Instr) : Laws.EncodeRow.Statement i := by
  cases i with
  | cls => exact Laws.EncodeRow.cls
  | ret => exact Laws.EncodeRow.ret
  | jp nnn => exact Laws.EncodeRow.jp nnn
  | call nnn => exact Laws.EncodeRow.call nnn
  | seVxKk x kk => exact Laws.EncodeRow.seVxKk x kk
  | sneVxKk x kk => exact Laws.EncodeRow.sneVxKk x kk
  | seVxVy x y => exact Laws.EncodeRow.seVxVy x y
  | ldVxKk x kk => exact Laws.EncodeRow.ldVxKk x kk
  | addVxKk x kk => exact Laws.EncodeRow.addVxKk x kk
  | ldVxVy x y => exact Laws.EncodeRow.ldVxVy x y
  | orVxVy x y => exact Laws.EncodeRow.orVxVy x y
  | andVxVy x y => exact Laws.EncodeRow.andVxVy x y
  | xorVxVy x y => exact Laws.EncodeRow.xorVxVy x y
  | addVxVy x y => exact Laws.EncodeRow.addVxVy x y
  | subVxVy x y => exact Laws.EncodeRow.subVxVy x y
  | shrVx x y => exact Laws.EncodeRow.shrVx x y
  | subnVxVy x y => exact Laws.EncodeRow.subnVxVy x y
  | shlVx x y => exact Laws.EncodeRow.shlVx x y
  | sneVxVy x y => exact Laws.EncodeRow.sneVxVy x y
  | ldINnn nnn => exact Laws.EncodeRow.ldINnn nnn
  | drw x y n => exact Laws.EncodeRow.drw x y n
  | ldVxDt x => exact Laws.EncodeRow.ldVxDt x
  | ldVxK x => exact Laws.EncodeRow.ldVxK x
  | ldDtVx x => exact Laws.EncodeRow.ldDtVx x
  | ldStVx x => exact Laws.EncodeRow.ldStVx x
  | ldFVx x => exact Laws.EncodeRow.ldFVx x
  | ldBVx x => exact Laws.EncodeRow.ldBVx x
  | ldMemVx x => exact Laws.EncodeRow.ldMemVx x
  | ldVxMem x => exact Laws.EncodeRow.ldVxMem x

/-- A word with an operation is the encoding of an instruction, so it matches that operation's row. -/
theorem exists_row_of_selectOp {w : Word} (h : selectOp w ≠ .unknown) :
    ∃ row ∈ opcodeRows, row.op = selectOp w ∧ w &&& row.mask = row.pattern := by
  obtain ⟨i, hi⟩ := Option.ne_none_iff_exists'.mp (mt decodeWord_eq_none_iff.mp h)
  obtain ⟨row, hrow, hop, hm⟩ := encode_matches_row i
  rw [encode_of_decodeWord hi] at hm
  exact ⟨row, hrow, hop.trans (op_of_decodeWord hi), hm⟩

theorem opcodeRows_op_nodup : (opcodeRows.map OpcodeRow.op).Nodup := by decide

theorem opcodeRows_op_ne_unknown : ∀ row ∈ opcodeRows, row.op ≠ .unknown := by decide

theorem selectOp_eq_op_iff {w : Word} {row : OpcodeRow} (hrow : row ∈ opcodeRows) :
    selectOp w = row.op ↔ w &&& row.mask = row.pattern := by
  refine ⟨fun h => ?_, selectOp_of_row row hrow⟩
  obtain ⟨q, hq, hop, hm⟩ := exists_row_of_selectOp (h.trans_ne (opcodeRows_op_ne_unknown row hrow))
  rwa [List.inj_on_of_nodup_map opcodeRows_op_nodup hq hrow (hop.trans h)] at hm

theorem selectOp_eq_unknown_iff {w : Word} :
    selectOp w = .unknown ↔ ∀ row ∈ opcodeRows, w &&& row.mask ≠ row.pattern := by
  constructor
  · intro h row hrow hm
    exact opcodeRows_op_ne_unknown row hrow ((selectOp_of_row row hrow hm).symm.trans h)
  · intro h
    by_contra hne
    obtain ⟨row, hrow, -, hm⟩ := exists_row_of_selectOp hne
    exact h row hrow hm

/-- Two rows that match one word have its operation, and the rows' operations differ. -/
theorem opcodeRows_disjoint (w : Word) :
    opcodeRows.Pairwise (fun r q => ¬(w &&& r.mask = r.pattern ∧ w &&& q.mask = q.pattern)) :=
  (List.pairwise_map.mp opcodeRows_op_nodup).imp_of_mem fun hr hq hne ⟨hmr, hmq⟩ =>
    hne ((selectOp_of_row _ hr hmr).symm.trans (selectOp_of_row _ hq hmq))

/-- Settles O2: a matching row selects its operation, an operation has a row, and the rows' operations differ. -/
theorem opcodeRowsSelectTheirOperation : Obligations.OpcodeRowsSelectTheirOperation := fun w =>
  ⟨fun _ => selectOp_eq_op_iff, opcodeRows_disjoint w, selectOp_eq_unknown_iff, decodeWord_eq_none_iff,
    fun _ => op_of_decodeWord⟩

/-! ## The UNKNOWN words (R94 to R96, R99) -/

/-- Settles O3: each row's condition becomes one on the integer fields, and the families are compared one by one. -/
theorem unknownWordsAreThoseOutsideTheMap : Obligations.UnknownWordsAreThoseOutsideTheMap := by
  intro w
  rw [decodeWord_eq_none_iff, selectOp_eq_unknown_iff]
  simp (disch := decide) only [opcodeRows, List.cons_append, List.nil_append, List.forall_mem_cons, List.not_mem_nil,
    false_imp_iff, implies_true, and_true, ne_eq, BitVec.ofNat_eq_ofNat, and_FFFF_eq_iff, and_F000_eq_iff,
    and_F00F_eq_iff, and_F0FF_eq_iff, familyOf_eq_iff, nOf_eq_iff, kkOf_eq_iff, nnnOf_eq_iff]
  have hw := w.isLt
  generalize hf : w.toNat / 4096 = f
  have hfamily : f < 16 := by omega
  interval_cases f <;> simp <;> omega

/-- Settles O6: the decoder is run on each of the fixed words. -/
theorem sampleWordsDecode : Obligations.SampleWordsDecode := by
  unfold Obligations.SampleWordsDecode
  decide

end Sys2Proof

namespace Sys2Proof.Machine

/-! # Proofs about the run loop (40_run_loop.md)

What a step fetches and then runs is said by one equation per case, and what an instruction's outcome can be by
`exec_followsTable`: the `pc` of the table of R126, the wait of Fx0A, or a fatal error. How a step in `Running` ends
(`step_ends`) follows, and the statements on run states and `pc` values are read off it. -/

/-! ## What a step runs (R120, R123, R132) -/

/-- A fetched word that is an instruction is executed. -/
theorem step_of_instr {s : State} {w : Word} {i : Instr} (hr : s.rs = .running) (hf : fetch s = .ok w)
    (hd : decodeWord w = some i) : step s = exec i s := by
  simp only [step, hr, hf, hd]

/-- A fetched word that is no instruction advances `pc` by 2. -/
theorem step_of_unknown {s : State} {w : Word} (hr : s.rs = .running) (hf : fetch s = .ok w)
    (hd : decodeWord w = none) : step s = .next (s.advance (s.pcNat + 2)) := by
  simp only [step, hr, hf, hd]
  rfl

/-- The fault of a fetch is taken. -/
theorem step_of_fetch_error {s : State} {c : HaltCause} (hr : s.rs = .running) (hf : fetch s = .error c) :
    step s = .next (haltedWith s c) := by
  simp only [step, hr, hf]
  rfl

theorem stepNotifications_of_unknown {s : State} {w : Word} (hr : s.rs = .running) (hf : fetch s = .ok w)
    (hd : decodeWord w = none) : stepNotifications s = [.unknownOpcode s.pc w] := by
  simp only [stepNotifications, hr, hf, hd]

theorem stepNotifications_of_fetch_error {s : State} {c : HaltCause} (hr : s.rs = .running)
    (hf : fetch s = .error c) : stepNotifications s = [] := by
  simp only [stepNotifications, hr, hf]

/-- Two bytes that are read as an instruction are the word of that instruction. -/
theorem decodeWord_of_decode_pair {hi lo : Byte} {i : Instr} (h : decode [hi, lo] = .ok (i, [])) :
    decodeWord (wordOfBytes hi lo) = some i := by
  rw [decode_cons] at h
  split at h
  next hd => cases h; exact hd
  next => cases h

/-- Settles O7: below 0xFFF the fetch gives the word of the two bytes, which is the instruction. -/
theorem stepRunsTheDecodedInstruction : Obligations.StepRunsTheDecodedInstruction := fun _ _ hr hpc hd =>
  step_of_instr hr (fetch_ok hpc) (decodeWord_of_decode_pair hd)

/-- Settles O8: the word is fetched, is no instruction, and the step is the advance by 2. -/
theorem stepAtUnknownWordOnlyAdvances : Obligations.StepAtUnknownWordOnlyAdvances := fun s hr hpc hd =>
  ⟨⟨_, step_of_unknown hr (fetch_ok hpc) hd, advance_frame (frame_refl [] s) _, advance_completes rfl _⟩,
    stepNotifications_of_unknown hr (fetch_ok hpc) hd⟩

/-- Settles O9: the fetch faults with the first address above 0xFFF, and the fault is taken. -/
theorem fetchPastTheTopHalts : Obligations.FetchPastTheTopHalts := fun _ hr hpc =>
  ⟨step_of_fetch_error hr (fetch_error hpc), stepNotifications_of_fetch_error hr (fetch_error hpc),
    fun htop => firstBad_of_le (by rw [htop]; decide)⟩

/-! ## Keys and ticks by run state (R122, R244, R245) -/

/-- A key outside `AwaitingKey` is lost. -/
theorem keyOp_of_not_awaiting {s : State} (k : BitVec 4) (h : ∀ x, s.rs ≠ .awaitingKey x) : keyOp k s = s := by
  unfold keyOp
  split
  · rfl
  · next x hx => exact absurd hx (h x)
  · rfl

/-- A key in `AwaitingKey(x)` is written to `V[x]`, and the core runs on past the Fx0A. -/
theorem keyOp_of_awaiting {s : State} {x : Reg} (k : BitVec 4) (h : s.rs = .awaitingKey x) :
    keyOp k s = ((s.writeV x (k.setWidth 8)).setRs .running).advance (s.pcNat + 2) := by
  simp only [keyOp, h]

theorem tickOp_of_halted {s : State} {c : HaltCause} (h : s.rs = .halted c) : tickOp s = s := by
  simp only [tickOp, h]

theorem tickOp_rs (s : State) : (tickOp s).rs = s.rs := by
  unfold tickOp
  split <;> rfl

/-- Settles O10: each of the operations is the identity in its run state. -/
theorem waitingAndHaltedCoresDoNotStep : Obligations.WaitingAndHaltedCoresDoNotStep := by
  refine ⟨fun s x h => ?waiting, fun s c k h => ⟨?haltedStep, ?haltedKey, ?haltedTick⟩, fun s k h => ?runningKey⟩
  case waiting => exact step_not_running (by simp [h])
  case haltedStep => exact step_not_running (by simp [h])
  case haltedKey => exact congrArg Host.Outcome.next (keyOp_of_not_awaiting k (by simp [h]))
  case haltedTick => exact congrArg Host.Outcome.next (tickOp_of_halted h)
  case runningKey => exact congrArg Host.Outcome.next (keyOp_of_not_awaiting k (by simp [h]))

/-! ## Every operation answers a next state (O11) -/

theorem exec_next (i : Instr) (s : State) : ∃ t, exec i s = .next t := by
  obtain ⟨r, hr, -⟩ := exec_commit i s
  rw [hr]
  exact commit_next s r

theorem step_next (s : State) : ∃ t, step s = .next t := by
  by_cases hr : s.rs = .running
  · obtain ⟨r, hstep, -⟩ := step_commit hr
    rw [hstep]
    exact commit_next s r
  · exact ⟨s, step_not_running hr⟩

/-- Settles O11: instructions and steps commit an outcome, which is always a next state; only `reset` can refuse. -/
theorem everyOperationAnswersANextState : Obligations.EveryOperationAnswersANextState := by
  refine ⟨step_next, exec_next, fun op s hfit => ?_⟩
  cases op with
  | reset image => exact ⟨loadImage s.params image, if_pos (hfit image rfl)⟩
  | step => exact step_next s
  | tick => exact ⟨tickOp s, rfl⟩
  | key k => exact ⟨keyOp k s, rfl⟩
  | read => exact ⟨s, rfl⟩

/-! ## The outcome of an instruction (R126) -/

/-- The table of R126: the unbounded `pc` an instruction leaves when it raises no fault. -/
def Instr.nextPc (i : Instr) (s : State) : Nat :=
  match i with
  | .jp nnn | .call nnn => nnn.toNat
  | .ret => s.resumeAt (Fin.ofNat 16 (s.sp.val - 1))
  | .seVxKk x kk => s.pc.toNat + if s.readV x = kk then 4 else 2
  | .sneVxKk x kk => s.pc.toNat + if s.readV x ≠ kk then 4 else 2
  | .seVxVy x y => s.pc.toNat + if s.readV x = s.readV y then 4 else 2
  | .sneVxVy x y => s.pc.toNat + if s.readV x ≠ s.readV y then 4 else 2
  | .ldVxK _ => s.pc.toNat
  | _ => s.pc.toNat + 2

/-- An outcome of `i` on `s` as the table gives it: the table's `pc` with the run state kept, the wait of an Fx0A, or a
fatal error. -/
def Result.FollowsTable (i : Instr) (s : State) : Result → Prop
  | .next q u => q = Instr.nextPc i s ∧ u.rs = s.rs
  | .await x => i = .ldVxK x
  | .fault c => c.fatal

theorem followsTable_nextInstr {i : Instr} {s u : State} (hpc : Instr.nextPc i s = s.pcNat + 2) (hu : u.rs = s.rs) :
    (nextInstr s u).FollowsTable i s := ⟨hpc.symm, hu⟩

theorem followsTable_aluInstr {i : Instr} {s : State} (hpc : Instr.nextPc i s = s.pcNat + 2) (fn : AluFn) (x : Reg)
    (b : Byte) : (aluInstr fn x b s).FollowsTable i s :=
  followsTable_nextInstr hpc (changesOnly_writeAlu s x _).rs

theorem followsTable_skipIf {i : Instr} {s : State} {b : Bool}
    (hpc : Instr.nextPc i s = s.pcNat + if b then 4 else 2) : (skipIf s b).FollowsTable i s := by
  cases b <;> exact ⟨hpc.symm, rfl⟩

/-- A failing range check raises a fatal error. -/
theorem followsTable_afterRangeCheck {i : Instr} {s : State} {r : Result} (a n : Nat) (h : r.FollowsTable i s) :
    (afterRangeCheck a n r).FollowsTable i s := by
  unfold afterRangeCheck
  by_cases hr : InRange a n
  · rw [rangeCheck_none hr]; exact h
  · rw [rangeCheck_some hr]; trivial

theorem followsTable_ret (s : State) :
    Result.FollowsTable .ret s
      (match s.pop with
       | none => .fault .stackUnderflow
       | some (a, t) => .next (a.toNat + 2) t) := by
  cases h : s.pop with
  | none => trivial
  | some p =>
    obtain ⟨a, t⟩ := p
    obtain ⟨⟨hk, rfl⟩, -, -, ht⟩ := pop_some h
    have htop : Fin.ofNat 16 (s.sp.val - 1) = ⟨s.sp.val - 1, hk⟩ := Fin.ext (Nat.mod_eq_of_lt hk)
    exact ⟨by rw [Instr.nextPc, htop, State.resumeAt], by rw [ht]⟩

theorem followsTable_call (nnn : BitVec 12) (s : State) :
    Result.FollowsTable (.call nnn) s
      (match s.push s.pc with
       | none => .fault .stackOverflow
       | some t => .next (zext16 nnn).toNat t) := by
  cases h : s.push s.pc with
  | none => trivial
  | some t =>
    obtain ⟨-, -, -, ht⟩ := push_some h
    exact ⟨BitVec.toNat_setWidth_of_le (by decide), by rw [ht]⟩

/-- Every instruction commits an outcome that follows the table. -/
theorem exec_followsTable (i : Instr) (s : State) : ∃ r, exec i s = commit s r ∧ r.FollowsTable i s := by
  cases i with
  | jp nnn => exact ⟨_, exec_jp nnn s, BitVec.toNat_setWidth_of_le (by decide), rfl⟩
  | call nnn => exact ⟨_, exec_call nnn s, followsTable_call nnn s⟩
  | ret => exact ⟨_, exec_ret s, followsTable_ret s⟩
  | seVxKk x kk => exact ⟨_, exec_seVxKk x kk s, followsTable_skipIf (by simp [Instr.nextPc, State.pcNat])⟩
  | sneVxKk x kk => exact ⟨_, exec_sneVxKk x kk s, followsTable_skipIf (by simp [Instr.nextPc, State.pcNat])⟩
  | seVxVy x y => exact ⟨_, exec_seVxVy x y s, followsTable_skipIf (by simp [Instr.nextPc, State.pcNat])⟩
  | sneVxVy x y => exact ⟨_, exec_sneVxVy x y s, followsTable_skipIf (by simp [Instr.nextPc, State.pcNat])⟩
  | ldVxK x => exact ⟨_, exec_ldVxK x s, rfl⟩
  | addVxKk x kk => exact ⟨_, exec_addVxKk x kk s, followsTable_aluInstr rfl _ _ _⟩
  | ldVxVy x y => exact ⟨_, exec_ldVxVy x y s, followsTable_aluInstr rfl _ _ _⟩
  | orVxVy x y => exact ⟨_, exec_orVxVy x y s, followsTable_aluInstr rfl _ _ _⟩
  | andVxVy x y => exact ⟨_, exec_andVxVy x y s, followsTable_aluInstr rfl _ _ _⟩
  | xorVxVy x y => exact ⟨_, exec_xorVxVy x y s, followsTable_aluInstr rfl _ _ _⟩
  | addVxVy x y => exact ⟨_, exec_addVxVy x y s, followsTable_aluInstr rfl _ _ _⟩
  | subVxVy x y => exact ⟨_, exec_subVxVy x y s, followsTable_aluInstr rfl _ _ _⟩
  | shrVx x y => exact ⟨_, exec_shrVx x y s, followsTable_aluInstr rfl _ _ _⟩
  | subnVxVy x y => exact ⟨_, exec_subnVxVy x y s, followsTable_aluInstr rfl _ _ _⟩
  | shlVx x y => exact ⟨_, exec_shlVx x y s, followsTable_aluInstr rfl _ _ _⟩
  | cls => exact ⟨_, exec_cls s, followsTable_nextInstr rfl rfl⟩
  | ldVxKk x kk => exact ⟨_, exec_ldVxKk x kk s, followsTable_nextInstr rfl rfl⟩
  | ldINnn nnn => exact ⟨_, exec_ldINnn nnn s, followsTable_nextInstr rfl rfl⟩
  | ldVxDt x => exact ⟨_, exec_ldVxDt x s, followsTable_nextInstr rfl rfl⟩
  | ldDtVx x => exact ⟨_, exec_ldDtVx x s, followsTable_nextInstr rfl rfl⟩
  | ldStVx x => exact ⟨_, exec_ldStVx x s, followsTable_nextInstr rfl rfl⟩
  | ldFVx x => exact ⟨_, exec_ldFVx x s, followsTable_nextInstr rfl rfl⟩
  | drw x y n =>
    exact ⟨_, exec_drw x y n s, followsTable_afterRangeCheck _ _ (followsTable_nextInstr rfl rfl)⟩
  | ldBVx x => exact ⟨_, exec_ldBVx x s, followsTable_afterRangeCheck _ _ (followsTable_nextInstr rfl rfl)⟩
  | ldMemVx x => exact ⟨_, exec_ldMemVx x s, followsTable_afterRangeCheck _ _ (followsTable_nextInstr rfl rfl)⟩
  | ldVxMem x =>
    exact ⟨_, exec_ldVxMem x s,
      followsTable_afterRangeCheck _ _ (followsTable_nextInstr rfl (changesOnly_loadRegs s _).rs)⟩

/-! ## How an instruction and a step end in `Running` (R122, R123) -/

/-- The run states a completed instruction leaves (R127). -/
def RunState.completed (rs : RunState) : Prop := rs = .running ∨ rs = .halted .endOfMemory

theorem advance_completed {u : State} (hu : u.rs = .running) (q : Nat) : (u.advance q).rs.completed := by
  rw [advance_rs, hu]
  split
  · exact .inr rfl
  · exact .inl rfl

/-- An instruction completes with the table's `pc`, waits if it is an Fx0A, or is taken as a fatal halt. -/
theorem exec_ends {i : Instr} {s t : State} (hr : s.rs = .running) (h : exec i s = .next t) :
    (t.rs.completed ∧ t.pc = BitVec.ofNat 16 (Instr.nextPc i s)) ∨
    (∃ x, i = .ldVxK x ∧ t = s.setRs (.awaitingKey x)) ∨ ∃ c, c.fatal ∧ t = haltedWith s c := by
  obtain ⟨r, he, hr'⟩ := exec_followsTable i s
  rcases commit_cases (he.symm.trans h) with ⟨q, u, rfl, rfl⟩ | ⟨x, rfl, rfl⟩ | ⟨c, rfl, rfl⟩
  · obtain ⟨rfl, hu⟩ := hr'
    exact .inl ⟨advance_completed (hu.trans hr) _, advance_pc _ _⟩
  · exact .inr (.inl ⟨x, hr', rfl⟩)
  · exact .inr (.inr ⟨c, hr', rfl⟩)

theorem firstBad_fatal (a : Nat) : (firstBad a).fatal := trivial

/-- A step in `Running` completes, waits at an Fx0A, or is taken as a fatal halt. -/
theorem step_ends {s t : State} (hr : s.rs = .running) (h : step s = .next t) :
    t.rs.completed ∨
    (∃ w x, fetch s = .ok w ∧ decodeWord w = some (.ldVxK x) ∧ t = s.setRs (.awaitingKey x)) ∨
    ∃ c, c.fatal ∧ t = haltedWith s c := by
  rcases step_running_cases hr with ⟨-, hstep⟩ | ⟨w, -, -, hstep⟩ | ⟨w, i, hf, hd, hstep⟩
  · cases hstep.symm.trans h
    exact .inr (.inr ⟨_, firstBad_fatal _, rfl⟩)
  · cases hstep.symm.trans h
    exact .inl (advance_completed hr _)
  · rcases exec_ends hr (hstep.symm.trans h) with ⟨hc, -⟩ | ⟨x, rfl, ht⟩ | hfault
    · exact .inl hc
    · exact .inr (.inl ⟨w, x, hf, hd, ht⟩)
    · exact .inr (.inr hfault)

/-! ## Fatal halts are precise (O12) -/

/-- Settles O12: a completed step and a wait leave no fatal halt, and a fatal error is taken as `haltedWith`. -/
theorem fatalHaltsArePrecise : Obligations.FatalHaltsArePrecise := by
  intro s t c hr h ht hc
  rcases step_ends hr h with hdone | ⟨w, x, -, -, rfl⟩ | ⟨d, -, rfl⟩
  · rcases hdone with hrun | hend
    · cases ht.symm.trans hrun
    · cases ht.symm.trans hend
      exact hc.elim
  · cases ht
  · cases ht
    rfl

/-! ## The run states (O14) -/

/-- The row of `key` in R122. -/
theorem keyOp_rs {s : State} {x : Reg} (k : BitVec 4) (h : s.rs = .awaitingKey x) :
    (keyOp k s).rs = if s.pc.toNat + 2 ≤ 0xFFF then .running else .halted .endOfMemory := by
  rw [keyOp_of_awaiting k h, advance_rs, setRs_rs, State.pcNat]
  by_cases hp : s.pc.toNat + 2 ≤ 0xFFF
  · rw [if_neg (by omega), if_pos hp]
  · rw [if_pos (by omega), if_neg hp]

/-- The row of `step` in `Running` in R122; the invariant of the state after gives the bound on `pc`. -/
theorem step_running_rs {s t : State} (hs : Inv s) (hr : s.rs = .running) (h : step s = .next t) :
    (t.rs = .running ∧ t.pc.toNat ≤ 0xFFF) ∨ (t.rs = .halted .endOfMemory ∧ 0xFFF < t.pc.toNat) ∨
    (∃ x w, t.rs = .awaitingKey x ∧ t.pc = s.pc ∧ fetch s = .ok w ∧ decodeWord w = some (.ldVxK x)) ∨
    ∃ c, t.rs = .halted c ∧ c.fatal ∧ t.pc = s.pc := by
  have ht : Inv t := stepKeepsTheInvariant s t hs h
  rcases step_ends hr h with hdone | ⟨w, x, hf, hd, rfl⟩ | ⟨c, hc, rfl⟩
  · rcases hdone with hrun | hend
    · exact .inl ⟨hrun, pc_le_of_running ht hrun⟩
    · exact .inr (.inl ⟨hend, (legal_pc ht.run_legal).2.mpr hend⟩)
  · exact .inr (.inr (.inl ⟨x, w, rfl, rfl, hf, hd⟩))
  · exact .inr (.inr (.inr ⟨c, rfl, hc, rfl⟩))

/-- A step at an Fx0A waits. -/
theorem step_rs_of_ldVxK {s t : State} {w : Word} {x : Reg} (hr : s.rs = .running) (hf : fetch s = .ok w)
    (hd : decodeWord w = some (.ldVxK x)) (h : step s = .next t) : t.rs = .awaitingKey x := by
  rw [step_of_instr hr hf hd, exec_ldVxK] at h
  cases h
  rfl

theorem resetOp_rs {image : List Byte} {s t : State} (h : resetOp image s = .next t) : t.rs = .running := by
  unfold resetOp at h
  split at h <;> cases h
  rfl

/-- Settles O14: one row of R122 for each host operation. -/
theorem runStateMovesAsTheTableSays : Obligations.RunStateMovesAsTheTableSays := by
  intro op s t hs h
  cases op with
  | reset image => exact resetOp_rs h
  | read => cases h; rfl
  | tick => cases h; exact ⟨tickOp_rs s, fun ⟨_, hc⟩ => tickOp_of_halted hc⟩
  | key k => cases h; exact ⟨fun _ => keyOp_rs k, keyOp_of_not_awaiting k⟩
  | step =>
    change step s = .next t at h
    refine ⟨fun hr => ?_, fun hr => step_running_rs hs hr h, fun w x hr hf hd => step_rs_of_ldVxK hr hf hd h⟩
    cases (step_not_running hr).symm.trans h
    rfl

/-! ## The next `pc` (O15) -/

/-- A 00EE that does not fault returns through a live entry. -/
theorem sp_pos_of_ret {s t : State} (h : exec .ret s = .next t) (ht : t.rs.safe) : 0 < s.sp.val := by
  by_contra hsp
  rw [exec_ret, (pop_eq_none_iff s).mpr (by omega)] at h
  cases h
  exact ht trivial

/-- In states of the invariant no value of the table is reduced to 16 bits (R36, R126). A dead entry can hold any
value, so a 00EE is asked for a live one. -/
theorem nextPc_lt {i : Instr} {s : State} (hs : Inv s) (hr : s.rs = .running) (hret : i = .ret → 0 < s.sp.val) :
    Instr.nextPc i s < 2 ^ 16 := by
  have hpc := pc_le_of_running hs hr
  cases i with
  | ret =>
    have hlive : (Fin.ofNat 16 (s.sp.val - 1)).val < s.sp.val :=
      (Nat.mod_le _ _).trans_lt (Nat.sub_lt (hret rfl) one_pos)
    exact (hs.stack_legal _ hlive).trans_lt (by decide)
  | jp nnn | call nnn => exact nnn.isLt.trans (by decide)
  | seVxKk | sneVxKk | seVxVy | sneVxVy => simp only [Instr.nextPc]; split <;> omega
  | _ => simp only [Instr.nextPc]; omega

theorem advance_pc_toNat (u : State) {q : Nat} (hq : q < 2 ^ 16) : (u.advance q).pc.toNat = q := by
  rw [advance_pc, BitVec.toNat_ofNat, Nat.mod_eq_of_lt hq]

theorem pc_le_of_awaiting {s : State} {x : Reg} (hs : Inv s) (hr : s.rs = .awaitingKey x) : s.pc.toNat ≤ 0xFFF := by
  have h := hs.run_legal
  rwa [hr] at h

/-- The `pc` an instruction leaves is the table's, unless it is taken as a fatal halt. -/
theorem exec_pc {i : Instr} {s t : State} (hs : Inv s) (hr : s.rs = .running) (h : exec i s = .next t)
    (ht : t.rs.safe) : t.pc.toNat = Instr.nextPc i s := by
  rcases exec_ends hr h with ⟨-, hpc⟩ | ⟨x, rfl, rfl⟩ | ⟨c, hc, rfl⟩
  · have hret : i = .ret → 0 < s.sp.val := by
      rintro rfl
      exact sp_pos_of_ret h ht
    rw [hpc, BitVec.toNat_ofNat, Nat.mod_eq_of_lt (nextPc_lt hs hr hret)]
  · rfl
  · exact absurd hc ht

/-- Settles O15: the table is `Instr.nextPc`; an UNKNOWN word and a key advance by 2 from a `pc` of at most 0xFFF. -/
theorem nextPcFollowsTheTable : Obligations.NextPcFollowsTheTable := by
  refine ⟨fun i s t hs hr h ht => ?table, fun s t w hs hr hf hd h => ?unknown, fun s t x k hs hr h => ?key⟩
  case table => exact (exec_pc hs hr h ht).trans (by cases i <;> rfl)
  case unknown =>
    have hpc := pc_le_of_running hs hr
    cases (step_of_unknown hr hf hd).symm.trans h
    exact advance_pc_toNat s (by unfold State.pcNat; omega)
  case key =>
    have hpc := pc_le_of_awaiting hs hr
    cases h
    rw [keyOp_of_awaiting k hr]
    exact advance_pc_toNat _ (by unfold State.pcNat; omega)

end Sys2Proof.Machine

namespace Sys2Proof.Machine

/-! # Proofs about control transfer (41_control_flow.md)

A row of R97 gives its encoding clause by `encodedBy_of_row`, and a skip its outcome by `commit_skipIf_of_iff`. What an
instruction can do to the call stack is said once, by `exec_stack_cases`; the return that matches a call (O21) rests on
the entry the call pushed staying live, which every operation but `reset` and the matching return keeps. -/

/-! ## The words of an instruction (R97) -/

/-- The words that match a row decode to the instruction that a record with the row's operation stands for. -/
theorem encodedBy_of_row {row : OpcodeRow} (hrow : row ∈ opcodeRows) {instr : Word → Instr}
    (hinstr : ∀ w, Decoded.instr? { decodeFields w with op := row.op } = some (instr w)) :
    EncodedBy row.mask row.pattern instr := by
  intro w
  constructor
  · intro hm
    rw [← hinstr w, ← selectOp_of_row row hrow hm]
    rfl
  · intro hd
    have hop : (instr w).op = row.op := op_of_instr? (hinstr w)
    exact (selectOp_eq_op_iff hrow).mp ((op_of_decodeWord hd).symm.trans hop)

/-! ## Jump (R151) -/

theorem toNat_zext16 (nnn : BitVec 12) : (zext16 nnn).toNat = nnn.toNat :=
  BitVec.toNat_setWidth_of_le (by decide)

/-- Jumping to a 12-bit target completes in the run state it started in. -/
theorem completes_target (u : State) (nnn : BitVec 12) :
    (u.advance nnn.toNat).pc.toNat = nnn.toNat ∧ (u.advance nnn.toNat).rs = u.rs := by
  have hlt := nnn.isLt
  exact ⟨advance_pc_toNat u (hlt.trans (by decide)), by rw [advance_rs, if_neg (by omega)]⟩

theorem exec_jp_eq (nnn : BitVec 12) (s : State) : exec (.jp nnn) s = .next (s.advance nnn.toNat) := by
  rw [exec_jp, toNat_zext16]
  rfl

/-- Settles O16: the target has 12 bits, so the jump neither wraps nor halts. -/
theorem jpSetsPcToItsTarget : Obligations.JpSetsPcToItsTarget := by
  refine ⟨encodedBy_of_row (row := ⟨.jp, 0x1000, 0xF000⟩) (by decide) fun _ => rfl, fun nnn s => ?_⟩
  obtain ⟨hpc, hrs⟩ := completes_target s nnn
  exact ⟨_, exec_jp_eq nnn s, hpc, hrs, advance_frame (frame_refl [] s) _⟩

/-! ## Skips (R14, R153 to R156) -/

/-- A skip whose condition is `P` goes 4 on when `P` holds and 2 on when not, and changes nothing else. -/
theorem commit_skipIf_of_iff (s : State) {b : Bool} {P : Prop} [Decidable P] (hb : b = true ↔ P) :
    ∃ t, commit s (skipIf s b) = .next t ∧ Frame [] s t ∧
      Completes s t (if P then s.pc.toNat + 4 else s.pc.toNat + 2) := by
  refine ⟨_, commit_skipIf s b, advance_frame (frame_refl [] s) _, ?_⟩
  have hq : (s.pcNat + if b then 4 else 2) = if P then s.pc.toNat + 4 else s.pc.toNat + 2 := by
    simp only [hb, State.pcNat]
    split <;> rfl
  rw [hq]
  exact advance_completes rfl _

/-- Settles O19: each instruction is a skip on its comparison. -/
theorem skipsOnImmediates : Obligations.SkipsOnImmediates :=
  ⟨encodedBy_of_row (row := ⟨.seVxKk, 0x3000, 0xF000⟩) (by decide) fun _ => rfl,
    encodedBy_of_row (row := ⟨.sneVxKk, 0x4000, 0xF000⟩) (by decide) fun _ => rfl,
    fun _ _ s => ⟨commit_skipIf_of_iff s beq_iff_eq, commit_skipIf_of_iff s bne_iff_ne⟩⟩

/-- Settles O20: each instruction is a skip on its comparison. -/
theorem skipsOnRegisters : Obligations.SkipsOnRegisters :=
  ⟨encodedBy_of_row (row := ⟨.seVxVy, 0x5000, 0xF00F⟩) (by decide) fun _ => rfl,
    encodedBy_of_row (row := ⟨.sneVxVy, 0x9000, 0xF00F⟩) (by decide) fun _ => rfl,
    fun _ _ s => ⟨commit_skipIf_of_iff s beq_iff_eq, commit_skipIf_of_iff s bne_iff_ne⟩⟩

/-! ## Call and return on one state (R150, R152) -/

/-- States with the same fields outside the listed parts read the same outside them. -/
theorem frame_of_changesOnly {parts : List Part} {s t : State} (h : ChangesOnly parts s t) : Frame parts s t := by
  refine ⟨fun p hp => ?_, h.params⟩
  have := h.part p hp
  cases p <;>
    simp_all [SamePart, Unchanged, State.readV, State.resumeAt, State.stackEntry, State.readMem, State.fbRead]

@[simp] theorem advance_resumeAt (u : State) (q : Nat) (k : Fin 16) : (u.advance q).resumeAt k = u.resumeAt k := by
  simp [State.resumeAt, State.stackEntry]

/-- `push` by the `pc` at which each entry resumes. -/
theorem push_resumeAt {s u : State} {a : Word} (h : s.push a = some u) (k : Fin 16) :
    u.resumeAt k = if k.val = s.sp.val then a.toNat + 2 else s.resumeAt k := by
  obtain ⟨-, -, hentry, -⟩ := push_some h
  rw [State.resumeAt, hentry]
  split <;> rfl

theorem push_changesOnly {s u : State} {a : Word} (h : s.push a = some u) : ChangesOnly [.stack] s u := by
  obtain ⟨-, -, -, hu⟩ := push_some h
  rw [hu]
  exact changesOnly_stack s u.stack u.sp

/-- A 2nnn that can push jumps with the call's own address pushed. -/
theorem exec_call_of_push {s u : State} (nnn : BitVec 12) (h : s.push s.pc = some u) :
    exec (.call nnn) s = .next (u.advance nnn.toNat) := by
  rw [exec_call, h, toNat_zext16]
  rfl

theorem exists_push {s : State} (h : s.sp.val < 16) (a : Word) : ∃ u, s.push a = some u :=
  Option.ne_none_iff_exists'.mp fun hn => h.ne ((push_eq_none_iff s a).mp hn)

/-- Settles O17: below 16 the push succeeds and the jump completes; at 16 the push is the overflow. -/
theorem callPushesItsAddressAndJumps : Obligations.CallPushesItsAddressAndJumps := by
  refine ⟨encodedBy_of_row (row := ⟨.call, 0x2000, 0xF000⟩) (by decide) fun _ => rfl,
    fun nnn s => ⟨fun hsp => ?room, fun hsp => ?full⟩⟩
  case room =>
    obtain ⟨u, hu⟩ := exists_push hsp s.pc
    obtain ⟨-, hsp', -, -⟩ := push_some hu
    have hch := push_changesOnly hu
    obtain ⟨hpc, hrs⟩ := completes_target u nnn
    exact ⟨_, exec_call_of_push nnn hu, hpc, hrs.trans hch.rs, by rwa [advance_sp],
      fun k => by rw [advance_resumeAt, push_resumeAt hu], advance_frame (frame_of_changesOnly hch) _⟩
  case full =>
    rw [exec_call, (push_eq_none_iff s s.pc).mpr hsp]
    rfl

/-- `pop` with `SP = k + 1` yields entry `k` and leaves `SP = k`, and nothing else changes. -/
theorem pop_of_live {s : State} {k : Fin 16} (hk : s.sp.val = k.val + 1) :
    s.pop = some (s.stackEntry k, { s with sp := k.castSucc }) := by
  cases h : s.pop with
  | none =>
    have := (pop_eq_none_iff s).mp h
    omega
  | some p =>
    obtain ⟨a, u⟩ := p
    obtain ⟨⟨hlt, rfl⟩, -, hsp, hu⟩ := pop_some h
    have hentry : (⟨s.sp.val - 1, hlt⟩ : Fin 16) = k := Fin.ext (by simp [hk])
    have hsp' : u.sp = k.castSucc := Fin.ext (by simp; omega)
    rw [hentry, hu, hsp']

/-- A 00EE with `SP = k + 1` resumes at entry `k`. -/
theorem exec_ret_of_live {s : State} {k : Fin 16} (hk : s.sp.val = k.val + 1) :
    exec .ret s = .next (State.advance { s with sp := k.castSucc } (s.resumeAt k)) := by
  rw [exec_ret, pop_of_live hk]
  rfl

/-- Settles O18: a live entry is popped and resumed at; an empty stack is the underflow. -/
theorem retResumesAfterTheCall : Obligations.RetResumesAfterTheCall := by
  refine ⟨encodedBy_of_row (row := ⟨.ret, 0x00EE, 0xFFFF⟩) (by decide) fun _ => rfl,
    fun s => ⟨fun k hk => ?live, fun hsp => ?empty⟩⟩
  case live =>
    exact ⟨_, exec_ret_of_live hk, advance_completes rfl _, by simp, fun j => advance_resumeAt _ _ j,
      advance_frame (frame_of_changesOnly (changesOnly_stack s s.stack k.castSucc)) _⟩
  case empty =>
    rw [exec_ret, (pop_eq_none_iff s).mpr hsp]
    rfl

/-! ## A live entry over a run (R159) -/

/-- All an instruction can do to the stack: nothing, the pop of a 00EE, or the push of the call's address by a 2nnn. -/
theorem exec_stack_cases {i : Instr} {s t : State} (h : exec i s = .next t) :
    SamePart .stack s t ∨ (i = .ret ∧ ∃ a u, s.pop = some (a, u) ∧ SamePart .stack u t) ∨
    ∃ nnn u, i = .call nnn ∧ s.push s.pc = some u ∧ SamePart .stack u t := by
  by_cases hc : SamePart .stack s t
  · exact .inl hc
  rcases (stack_mem_writtenParts i).mp (mem_writtenParts_of_changed h hc) with rfl | ⟨nnn, rfl⟩
  · cases hp : s.pop with
    | none => rw [exec_ret, hp] at h; cases h; exact .inl ⟨rfl, rfl⟩
    | some p =>
      rw [exec_ret, hp] at h
      cases h
      exact .inr (.inl ⟨rfl, p.1, p.2, rfl, by simp [SamePart]⟩)
  · cases hp : s.push s.pc with
    | none => rw [exec_call, hp] at h; cases h; exact .inl ⟨rfl, rfl⟩
    | some u =>
      cases (exec_call_of_push nnn hp).symm.trans h
      exact .inr (.inr ⟨nnn, u, rfl, rfl, by simp [SamePart]⟩)

/-- Entry `k` is live and a 00EE that pops it resumes at `r`. -/
structure LiveEntry (k : Fin 16) (r : Nat) (s : State) : Prop where
  live : k.val < s.sp.val
  resume : s.resumeAt k = r

section
variable {k : Fin 16} {r : Nat} {s t : State}

theorem liveEntry_of_samePart (h : SamePart .stack s t) (hs : LiveEntry k r s) : LiveEntry k r t := by
  obtain ⟨hsp, hst⟩ := h
  exact ⟨hsp ▸ hs.live, by simpa [State.resumeAt, State.stackEntry, hst] using hs.resume⟩

/-- A push goes above every live entry. -/
theorem push_liveEntry {a : Word} (h : s.push a = some t) (hs : LiveEntry k r s) : LiveEntry k r t := by
  obtain ⟨-, hsp, -, -⟩ := push_some h
  have hlive := hs.live
  exact ⟨by omega, by rw [push_resumeAt h, if_neg hlive.ne, hs.resume]⟩

/-- A pop of another entry than `k` leaves entry `k` live. -/
theorem pop_liveEntry {a : Word} (h : s.pop = some (a, t)) (hne : s.sp.val ≠ k.val + 1) (hs : LiveEntry k r s) :
    LiveEntry k r t := by
  obtain ⟨-, -, hsp, ht⟩ := pop_some h
  have hlive := hs.live
  exact ⟨by omega, by rw [ht]; exact hs.resume⟩

theorem exec_liveEntry {i : Instr} (h : exec i s = .next t) (hret : i = .ret → s.sp.val ≠ k.val + 1)
    (hs : LiveEntry k r s) : LiveEntry k r t := by
  rcases exec_stack_cases h with hsame | ⟨hi, a, u, hu, hsame⟩ | ⟨nnn, u, -, hu, hsame⟩
  · exact liveEntry_of_samePart hsame hs
  · exact liveEntry_of_samePart hsame (pop_liveEntry hu (hret hi) hs)
  · exact liveEntry_of_samePart hsame (push_liveEntry hu hs)

/-- A step that does not return through entry `k` keeps it: the one word of a 00EE is 0x00EE. -/
theorem step_liveEntry (h : step s = .next t) (hret : ExecutesRet s → s.sp.val ≠ k.val + 1)
    (hs : LiveEntry k r s) : LiveEntry k r t := by
  by_cases hr : s.rs = .running
  · rcases step_running_cases hr with ⟨-, hstep⟩ | ⟨w, -, -, hstep⟩ | ⟨w, i, hf, hd, hstep⟩
    · cases hstep.symm.trans h
      exact ⟨hs.live, hs.resume⟩
    · cases hstep.symm.trans h
      exact liveEntry_of_samePart (by simp [SamePart]) hs
    · refine exec_liveEntry (hstep.symm.trans h) (fun hi => hret ⟨hr, ?_⟩) hs
      subst hi
      rw [hf, ← encode_of_decodeWord hd]
      rfl
  · cases (step_not_running hr).symm.trans h
    exact hs

theorem tickOp_samePart_stack (s : State) : SamePart .stack s (tickOp s) := by
  unfold tickOp
  split <;> exact ⟨rfl, rfl⟩

theorem keyOp_samePart_stack (key : BitVec 4) (s : State) : SamePart .stack s (keyOp key s) := by
  unfold keyOp
  split <;> simp [SamePart]

theorem hostOp_liveEntry {op : HostOp} (h : hostOp op s = .next t) (notReset : ∀ image, op ≠ .reset image)
    (notReturn : ¬(op = .step ∧ ExecutesRet s ∧ s.sp.val = k.val + 1)) (hs : LiveEntry k r s) :
    LiveEntry k r t := by
  cases op with
  | reset image => exact absurd rfl (notReset image)
  | step => exact step_liveEntry h (fun he hsp => notReturn ⟨rfl, he, hsp⟩) hs
  | tick => cases h; exact liveEntry_of_samePart (tickOp_samePart_stack s) hs
  | key key => cases h; exact liveEntry_of_samePart (keyOp_samePart_stack key s) hs
  | read => cases h; exact hs

/-- A run without a return through entry `k` keeps it, by induction over its host operations. -/
theorem noReturnAt_liveEntry (h : NoReturnAt (k.val + 1) s t) (hs : LiveEntry k r s) : LiveEntry k r t := by
  induction h with
  | refl => exact hs
  | step op _ notReset notReturn ht ih => exact hostOp_liveEntry ht notReset notReturn ih

end

/-- The entry a call pushed is live and resumes 2 past the call. -/
theorem push_pc_liveEntry {s u : State} (hsp : s.sp.val < 16) (h : s.push s.pc = some u) :
    LiveEntry ⟨s.sp.val, hsp⟩ (s.pc.toNat + 2) u := by
  obtain ⟨-, hsp', -, -⟩ := push_some h
  exact ⟨by rw [hsp']; exact Nat.lt_succ_self _, by rw [push_resumeAt h, if_pos rfl]⟩

theorem step_of_executesRet {s : State} (h : ExecutesRet s) : step s = exec .ret s := by
  obtain ⟨hr, hf⟩ := h
  exact step_of_instr hr hf (decodeWord_encode .ret)

/-- Settles O21: the call makes its entry live, the run keeps it, and the return pops it. The call was fetched, so the
address 2 past it does not wrap. -/
theorem callThenReturnResumesAfterTheCall : Obligations.CallThenReturnResumesAfterTheCall := by
  intro s s1 s2 s3 w nnn hr hf hd hsp hcall hrun hret hsp2 hstep
  obtain ⟨u, hu⟩ := exists_push hsp s.pc
  cases ((step_of_instr hr hf hd).trans (exec_call_of_push nnn hu)).symm.trans hcall
  obtain ⟨-, hspu, -, -⟩ := push_some hu
  rw [advance_sp] at hrun hsp2
  rw [hspu] at hrun
  have hlive : LiveEntry ⟨s.sp.val, hsp⟩ (s.pc.toNat + 2) (u.advance nnn.toNat) :=
    liveEntry_of_samePart (by simp [SamePart]) (push_pc_liveEntry hsp hu)
  have hresume := (noReturnAt_liveEntry hrun hlive).resume
  have hdepth : s2.sp.val = s.sp.val + 1 := hsp2 ▸ hspu
  cases ((step_of_executesRet hret).trans (exec_ret_of_live (k := ⟨s.sp.val, hsp⟩) hdepth)).symm.trans hstep
  have hpc : s.pc.toNat ≤ 0xFFE := ((fetch_eq_ok_iff s w).mp hf).1
  rw [hresume, advance_sp]
  exact ⟨advance_pc_toNat _ (by omega), rfl⟩

end Sys2Proof.Machine

namespace Sys2Proof.Machine

/-! # Proofs about ALU and register arithmetic (42_alu.md)

An instruction of this block makes either one register write or the two writes of a flagged result. What each of the two
commits to is said once, by `commit_writeV` and `commit_aluInstr_flagged`; an obligation then reads the row of the ALU's
table (R171). The write order (O28) can be seen in one place only, the two writes of `writeFlagged` on `VF`. -/

/-! ## The two writes of a flagged result (R174) -/

/-- On another register than `VF` the order of the two writes cannot be seen. -/
theorem readV_writeFlagged_of_ne (s : State) {x : Reg} (hx : x ≠ VF) (r : Byte) (f : Bool) (q : Reg) :
    (s.writeFlagged x r f).readV q = if q = x then r else if q = VF then flagByte f else s.readV q := by
  unfold State.writeFlagged
  split
  · simp only [readV_writeV]
  · by_cases hq : q = x
    · simp [readV_writeV, hq, hx]
    · simp [readV_writeV, hq]

/-! ## One instruction under another value of the parameters (O28) -/

/-- The state with the parameters replaced. -/
def State.withParams (s : State) (p : Params) : State := { s with params := p }

/-- The flagged instructions on `VF`, the only ones for which the write order shows (R174). -/
def Instr.FlaggedOnVF (i : Instr) : Prop :=
  ∃ y, i = .addVxVy VF y ∨ i = .subVxVy VF y ∨ i = .shrVx VF y ∨ i = .subnVxVy VF y ∨ i = .shlVx VF y

/-- `u'` is `u` with the parameters `p`, but that `VF` may differ where `i` is a flagged instruction on `VF`. -/
structure SameUnder (i : Instr) (p : Params) (u u' : State) : Prop where
  regs : ∀ r, u'.readV r ≠ u.readV r → r = VF ∧ Instr.FlaggedOnVF i
  rest : u' = { u with v := u'.v, params := p }

/-- Two outcomes of the same kind, `pc`, register or cause, whose staged states are the same under `p`. -/
inductive Result.SameUnder (i : Instr) (p : Params) : Result → Result → Prop where
  | next (q : Nat) {u u' : State} (h : Machine.SameUnder i p u u') : Result.SameUnder i p (.next q u) (.next q u')
  | await (x : Reg) : Result.SameUnder i p (.await x) (.await x)
  | fault (c : HaltCause) : Result.SameUnder i p (.fault c) (.fault c)

section
variable {i : Instr} {p : Params}

theorem sameUnder_withParams (u : State) : SameUnder i p u (u.withParams p) := ⟨fun _ h => absurd rfl h, rfl⟩

theorem sameUnder_advance {u u' : State} (h : SameUnder i p u u') (q : Nat) :
    SameUnder i p (u.advance q) (u'.advance q) := by
  refine ⟨fun r hr => h.regs r (by simpa using hr), ?_⟩
  rw [advance_v]
  conv_lhs => rw [h.rest]
  unfold State.advance
  split <;> rfl

/-- Outcomes that are the same under `p` commit to states that are. -/
theorem sameUnder_commit {s t t' : State} {a a' : Result} (ha : a.SameUnder i p a') (ht : commit s a = .next t)
    (ht' : commit (s.withParams p) a' = .next t') : SameUnder i p t t' := by
  cases ha with
  | next q h => cases ht; cases ht'; exact sameUnder_advance h q
  | await x => cases ht; cases ht'; exact sameUnder_withParams _
  | fault c => cases ht; cases ht'; exact sameUnder_withParams _

theorem sameUnder_afterRangeCheck {a a' : Result} (base n : Nat) (h : a.SameUnder i p a') :
    (afterRangeCheck base n a).SameUnder i p (afterRangeCheck base n a') := by
  unfold afterRangeCheck
  split
  · exact .fault _
  · exact h

theorem sameUnder_skipIf (s : State) (c : Bool) : (skipIf s c).SameUnder i p (skipIf (s.withParams p) c) := by
  cases c <;> exact .next _ (sameUnder_withParams s)

/-- The parameters show in a register after the write of an ALU output only where that register is `VF`, it is the
destination, and there is a flag. -/
theorem eq_VF_of_readV_writeAlu_withParams_ne {s : State} {x q : Reg} {o : Byte × Option Bool}
    (h : ((s.withParams p).writeAlu x o).readV q ≠ (s.writeAlu x o).readV q) : q = VF ∧ x = VF ∧ o.2 ≠ none := by
  obtain ⟨r, _ | f⟩ := o
  · exact absurd ((readV_writeV (s.withParams p) x q r).trans (readV_writeV s x q r).symm) h
  by_cases hx : x = VF
  · refine ⟨?_, hx, by simp⟩
    by_contra hq
    exact h ((readV_writeFlagged_other (s.withParams p) r f (hx ▸ hq) hq).trans
      (readV_writeFlagged_other s r f (hx ▸ hq) hq).symm)
  · exact absurd
      ((readV_writeFlagged_of_ne (s.withParams p) hx r f q).trans (readV_writeFlagged_of_ne s hx r f q).symm) h

theorem sameUnder_aluInstr (s : State) {fn : AluFn} {x : Reg} {b : Byte}
    (hi : x = VF → (alu fn (s.readV x) b).2 ≠ none → Instr.FlaggedOnVF i) :
    (aluInstr fn x b s).SameUnder i p (aluInstr fn x b (s.withParams p)) := by
  refine .next _ ⟨fun q hq => ?_, ?_⟩
  · obtain ⟨hv, hx, hflag⟩ := eq_VF_of_readV_writeAlu_withParams_ne hq
    exact ⟨hv, hi hx hflag⟩
  · rw [writeAlu_eq (s.withParams p), writeAlu_eq s]
    rfl

theorem loadRegs_withParams (s : State) (l : List Reg) :
    (s.withParams p).loadRegs l = (s.loadRegs l).withParams p := by
  induction l generalizing s with
  | nil => rfl
  | cons k l ih => exact ih (s.writeV k (s.readMem (s.indexAddr k.val)))

theorem pop_withParams (s : State) : (s.withParams p).pop = s.pop.map fun e => (e.1, e.2.withParams p) := by
  unfold State.pop State.withParams
  split <;> rfl

theorem push_withParams (s : State) (a : Word) :
    (s.withParams p).push a = (s.push a).map fun u => u.withParams p := by
  unfold State.push State.withParams
  split <;> rfl

end

/-- No instruction but a flagged one on `VF` looks at the parameters: its outcomes are the same under any. -/
theorem exec_sameUnder (i : Instr) (s : State) (p : Params) :
    ∃ a a', exec i s = commit s a ∧ exec i (s.withParams p) = commit (s.withParams p) a' ∧ a.SameUnder i p a' := by
  cases i with
  | cls => exact ⟨_, _, exec_cls s, exec_cls _, .next _ (sameUnder_withParams s.fbClear)⟩
  | ret =>
    refine ⟨_, _, exec_ret s, exec_ret _, ?_⟩
    rw [pop_withParams]
    cases s.pop with
    | none => exact .fault _
    | some e => exact .next _ (sameUnder_withParams e.2)
  | jp nnn => exact ⟨_, _, exec_jp nnn s, exec_jp nnn _, .next _ (sameUnder_withParams s)⟩
  | call nnn =>
    refine ⟨_, _, exec_call nnn s, exec_call nnn _, ?_⟩
    rw [push_withParams, show (s.withParams p).pc = s.pc from rfl]
    cases s.push s.pc with
    | none => exact .fault _
    | some u => exact .next _ (sameUnder_withParams u)
  | seVxKk x kk => exact ⟨_, _, exec_seVxKk x kk s, exec_seVxKk x kk _, sameUnder_skipIf s _⟩
  | sneVxKk x kk => exact ⟨_, _, exec_sneVxKk x kk s, exec_sneVxKk x kk _, sameUnder_skipIf s _⟩
  | seVxVy x y => exact ⟨_, _, exec_seVxVy x y s, exec_seVxVy x y _, sameUnder_skipIf s _⟩
  | sneVxVy x y => exact ⟨_, _, exec_sneVxVy x y s, exec_sneVxVy x y _, sameUnder_skipIf s _⟩
  | ldVxKk x kk => exact ⟨_, _, exec_ldVxKk x kk s, exec_ldVxKk x kk _, .next _ (sameUnder_withParams (s.writeV x _))⟩
  | addVxKk x kk => exact ⟨_, _, exec_addVxKk x kk s, exec_addVxKk x kk _, sameUnder_aluInstr s (by simp [alu])⟩
  | ldVxVy x y => exact ⟨_, _, exec_ldVxVy x y s, exec_ldVxVy x y _, sameUnder_aluInstr s (by simp [alu])⟩
  | orVxVy x y => exact ⟨_, _, exec_orVxVy x y s, exec_orVxVy x y _, sameUnder_aluInstr s (by simp [alu])⟩
  | andVxVy x y => exact ⟨_, _, exec_andVxVy x y s, exec_andVxVy x y _, sameUnder_aluInstr s (by simp [alu])⟩
  | xorVxVy x y => exact ⟨_, _, exec_xorVxVy x y s, exec_xorVxVy x y _, sameUnder_aluInstr s (by simp [alu])⟩
  | addVxVy x y =>
    exact ⟨_, _, exec_addVxVy x y s, exec_addVxVy x y _, sameUnder_aluInstr s fun hx _ => ⟨y, by simp [hx]⟩⟩
  | subVxVy x y =>
    exact ⟨_, _, exec_subVxVy x y s, exec_subVxVy x y _, sameUnder_aluInstr s fun hx _ => ⟨y, by simp [hx]⟩⟩
  | shrVx x y =>
    exact ⟨_, _, exec_shrVx x y s, exec_shrVx x y _, sameUnder_aluInstr s fun hx _ => ⟨y, by simp [hx]⟩⟩
  | subnVxVy x y =>
    exact ⟨_, _, exec_subnVxVy x y s, exec_subnVxVy x y _, sameUnder_aluInstr s fun hx _ => ⟨y, by simp [hx]⟩⟩
  | shlVx x y =>
    exact ⟨_, _, exec_shlVx x y s, exec_shlVx x y _, sameUnder_aluInstr s fun hx _ => ⟨y, by simp [hx]⟩⟩
  | ldINnn nnn =>
    exact ⟨_, _, exec_ldINnn nnn s, exec_ldINnn nnn _, .next _ (sameUnder_withParams (s.writeI (zext16 nnn)))⟩
  | drw x y n =>
    exact ⟨_, _, exec_drw x y n s, exec_drw x y n _,
      sameUnder_afterRangeCheck _ _ (.next _ (sameUnder_withParams (State.writeV (s.setFb _) VF _)))⟩
  | ldVxDt x => exact ⟨_, _, exec_ldVxDt x s, exec_ldVxDt x _, .next _ (sameUnder_withParams (s.writeV x s.dt))⟩
  | ldVxK x => exact ⟨_, _, exec_ldVxK x s, exec_ldVxK x _, .await x⟩
  | ldDtVx x => exact ⟨_, _, exec_ldDtVx x s, exec_ldDtVx x _, .next _ (sameUnder_withParams (s.writeDt _))⟩
  | ldStVx x => exact ⟨_, _, exec_ldStVx x s, exec_ldStVx x _, .next _ (sameUnder_withParams (s.writeSt _))⟩
  | ldFVx x => exact ⟨_, _, exec_ldFVx x s, exec_ldFVx x _, .next _ (sameUnder_withParams (s.writeI _))⟩
  | ldBVx x =>
    exact ⟨_, _, exec_ldBVx x s, exec_ldBVx x _,
      sameUnder_afterRangeCheck _ _ (.next _ (sameUnder_withParams (s.storeBytes _ _)))⟩
  | ldMemVx x =>
    exact ⟨_, _, exec_ldMemVx x s, exec_ldMemVx x _,
      sameUnder_afterRangeCheck _ _ (.next _ (sameUnder_withParams (s.storeBytes _ _)))⟩
  | ldVxMem x =>
    refine ⟨_, _, exec_ldVxMem x s, exec_ldVxMem x _, sameUnder_afterRangeCheck _ _ ?_⟩
    rw [loadRegs_withParams]
    exact .next _ (sameUnder_withParams _)

/-- Settles O28: outcomes that are the same under the other parameters commit to states that are. -/
theorem writeOrdersDifferOnlyOnVF : Obligations.WriteOrdersDifferOnlyOnVF := by
  intro i s t u p ht hu
  obtain ⟨a, a', ha, ha', hsame⟩ := exec_sameUnder i s p
  have h : SameUnder i p t u := sameUnder_commit hsame (ha.symm.trans ht) (ha'.symm.trans hu)
  refine ⟨h.regs, ?_, ?_⟩
  · rw [h.rest]
  · rw [h.rest]

/-! ## One register written (R175 to R180, R240) -/

/-- An instruction that writes `b` to `V[x]` keeps every other register and all other state, and goes 2 on. -/
theorem commit_writeV (s : State) (x : Reg) (b : Byte) :
    ∃ t, commit s (nextInstr s (s.writeV x b)) = .next t ∧ t.readV x = b ∧ (∀ r, r ≠ x → t.readV r = s.readV r) ∧
      Frame [.v] s t ∧ Completes s t (s.pc.toNat + 2) := by
  refine ⟨_, commit_nextInstr s _, ?_, fun r hr => ?_, advance_frame (writeV_frame s x b) _,
    advance_completes (writeV_rs s x b) _⟩
  · rw [advance_readV, readV_writeV_same]
  · rw [advance_readV, readV_writeV_other s b hr]

/-- The same for an ALU function without a flag, with what the written value `c` is (`P`). -/
theorem commit_aluInstr_unflagged {s : State} {fn : AluFn} {x : Reg} {b c : Byte} {P : Byte → Prop}
    (halu : alu fn (s.readV x) b = (c, none)) (hc : P c) :
    ∃ t, commit s (aluInstr fn x b s) = .next t ∧ P (t.readV x) ∧ (∀ r, r ≠ x → t.readV r = s.readV r) ∧
      Frame [.v] s t ∧ Completes s t (s.pc.toNat + 2) := by
  obtain ⟨t, ht, hx, hrest⟩ := commit_writeV s x c
  refine ⟨t, ?_, hx ▸ hc, hrest⟩
  rw [aluInstr, halu]
  exact ht

/-- Settles O22: each writes one register. -/
theorem loadsWriteTheirRegister : Obligations.LoadsWriteTheirRegister :=
  ⟨encodedBy_of_row (row := ⟨.ldVxKk, 0x6000, 0xF000⟩) (by decide) fun _ => rfl,
    encodedBy_of_row (row := ⟨.ldVxVy, 0x8000, 0xF00F⟩) (by decide) fun _ => rfl,
    encodedBy_of_row (row := ⟨.ldVxDt, 0xF007, 0xF0FF⟩) (by decide) fun _ => rfl,
    fun x y kk s => ⟨commit_writeV s x kk, commit_writeV s x (s.readV y), commit_writeV s x s.dt⟩⟩

/-- Settles O23: the ALU's sum is written without its carry. -/
theorem addImmediateWrapsWithoutFlag : Obligations.AddImmediateWrapsWithoutFlag :=
  ⟨encodedBy_of_row (row := ⟨.addVxKk, 0x7000, 0xF000⟩) (by decide) fun _ => rfl,
    fun x kk s =>
      commit_aluInstr_unflagged (P := fun b => b.toNat = ((s.readV x).toNat + kk.toNat) % 256) rfl (sumMod_toNat _ _)⟩

/-- Settles O24: the ALU's bitwise results have no flag. -/
theorem bitwiseOperations : Obligations.BitwiseOperations := by
  refine ⟨encodedBy_of_row (row := ⟨.orVxVy, 0x8001, 0xF00F⟩) (by decide) fun _ => rfl,
    encodedBy_of_row (row := ⟨.andVxVy, 0x8002, 0xF00F⟩) (by decide) fun _ => rfl,
    encodedBy_of_row (row := ⟨.xorVxVy, 0x8003, 0xF00F⟩) (by decide) fun _ => rfl, fun x y s => ⟨?or, ?and, ?xor⟩⟩
  case or =>
    exact commit_aluInstr_unflagged (fn := .or)
      (P := fun b => ∀ k, b.getLsbD k = ((s.readV x).getLsbD k || (s.readV y).getLsbD k)) rfl
      fun _ => BitVec.getLsbD_or
  case and =>
    exact commit_aluInstr_unflagged (fn := .and)
      (P := fun b => ∀ k, b.getLsbD k = ((s.readV x).getLsbD k && (s.readV y).getLsbD k)) rfl
      fun _ => BitVec.getLsbD_and
  case xor =>
    exact commit_aluInstr_unflagged (fn := .xor)
      (P := fun b => ∀ k, b.getLsbD k = Bool.xor ((s.readV x).getLsbD k) ((s.readV y).getLsbD k)) rfl
      fun _ => BitVec.getLsbD_xor

/-! ## Result and flag (R181 to R185) -/

theorem advance_flaggedResult {s u : State} {x : Reg} {n : Nat} {P : Prop} (h : FlaggedResult s u x n P) (q : Nat) :
    FlaggedResult s (u.advance q) x n P := by
  simpa only [FlaggedResult, advance_readV] using h

/-- An ALU function with result `r` and flag `f` writes both in the parameter's order, keeps every other register and
all other state, and goes 2 on. The result is read as an integer `n` and the flag as a proposition `P`. -/
theorem commit_aluInstr_flagged {s : State} {fn : AluFn} {x : Reg} {b r : Byte} {f : Bool} {n : Nat} {P : Prop}
    (halu : alu fn (s.readV x) b = (r, some f)) (hr : r.toNat = n) (hf : f = true ↔ P) :
    ∃ t, commit s (aluInstr fn x b s) = .next t ∧ FlaggedResult s t x n P ∧ Frame [.v] s t ∧
      Completes s t (s.pc.toNat + 2) := by
  have hstaged : FlaggedResult s (s.writeAlu x (r, some f)) x n P := by
    rw [← hr, ← propext hf]
    exact writeFlagged_flaggedResult s x r f
  rw [aluInstr, halu]
  exact ⟨_, commit_nextInstr s _, advance_flaggedResult hstaged _, advance_frame (writeAlu_frame s x _) _,
    advance_completes (changesOnly_writeAlu s x _).rs _⟩

/-- Settles O25: the ALU's sum and carry. -/
theorem addRegistersSetsCarry : Obligations.AddRegistersSetsCarry :=
  ⟨encodedBy_of_row (row := ⟨.addVxVy, 0x8004, 0xF00F⟩) (by decide) fun _ => rfl,
    fun _ _ _ => commit_aluInstr_flagged rfl (sumMod_toNat _ _) (carryFlag_iff _ _)⟩

/-- Settles O26: the ALU's difference and strict comparison, with the operands in either order. -/
theorem subtractionsSetStrictGreater : Obligations.SubtractionsSetStrictGreater :=
  ⟨encodedBy_of_row (row := ⟨.subVxVy, 0x8005, 0xF00F⟩) (by decide) fun _ => rfl,
    encodedBy_of_row (row := ⟨.subnVxVy, 0x8007, 0xF00F⟩) (by decide) fun _ => rfl,
    fun _ _ _ => ⟨commit_aluInstr_flagged rfl (diffMod_toNat _ _) (greaterFlag_iff _ _),
      commit_aluInstr_flagged rfl (diffMod_toNat _ _) (greaterFlag_iff _ _)⟩⟩

/-- Settles O27: the ALU halves or doubles `V[x]`, and the flag is the bit that leaves it. -/
theorem shiftsSetTheBitShiftedOut : Obligations.ShiftsSetTheBitShiftedOut :=
  ⟨encodedBy_of_row (row := ⟨.shrVx, 0x8006, 0xF00F⟩) (by decide) fun _ => rfl,
    encodedBy_of_row (row := ⟨.shlVx, 0x800E, 0xF00F⟩) (by decide) fun _ => rfl,
    fun _ y s => ⟨commit_aluInstr_flagged rfl (shrResult_toNat _ (s.readV y)) (lowBit_iff _),
      commit_aluInstr_flagged rfl (shlResult_toNat _ (s.readV y)) (topBit_iff _)⟩⟩

end Sys2Proof.Machine

namespace Sys2Proof.Machine

/-! # Proofs about the index register and memory transfers (43_index_memory.md)

Annn and Fx29 are one write of `I`, said once by `commit_writeI`. The three transfers check a block of `k + 1` addresses
from `I` before they touch anything; whether that check passes is one inequality, and each transfer then either
completes with its block moved (`commit_block_of_fits`) or halts with nothing changed (`commit_block_of_not_fits`). -/

/-! ## One write of `I` (R200, R201) -/

/-- An instruction that writes `w` to `I` keeps all other state, and goes 2 on. -/
theorem commit_writeI (s : State) {w : Word} {n : Nat} (hw : w.toNat = n) :
    ∃ t, commit s (nextInstr s (s.writeI w)) = .next t ∧ t.i.toNat = n ∧ Frame [.i] s t ∧
      Completes s t (s.pc.toNat + 2) := by
  refine ⟨_, commit_nextInstr s _, ?_, advance_frame (frame_of_changesOnly (changesOnly_writeI s w)) _,
    advance_completes (writeI_rs s w) _⟩
  rw [advance_i, writeI_i, hw]

/-- Settles O29: a 12-bit address fits in `I` as it stands. -/
theorem loadIndexImmediate : Obligations.LoadIndexImmediate :=
  ⟨encodedBy_of_row (row := ⟨.ldINnn, 0xA000, 0xF000⟩) (by decide) fun _ => rfl,
    fun nnn s => commit_writeI s (toNat_zext16 nnn)⟩

/-- Settles O30: five times a byte is at most 5 * 255, so `I` holds the product unreduced. -/
theorem loadGlyphAddress : Obligations.LoadGlyphAddress := by
  refine ⟨encodedBy_of_row (row := ⟨.ldFVx, 0xF029, 0xF0FF⟩) (by decide) fun _ => rfl, fun x s => ?_⟩
  obtain ⟨t, ht, hi, hrest⟩ := commit_writeI s (glyphAddr_toNat (s.readV x))
  have hbyte := (s.readV x).isLt
  exact ⟨t, ht, hi, by omega, hrest⟩

/-! ## A block of addresses from `I`, checked first (R64, R202 to R204) -/

/-- The `k + 1` addresses from `I` all exist exactly when the last one does. -/
theorem inRange_block_iff (s : State) (k : Nat) : InRange (s.indexAddr 0) (k + 1) ↔ s.i.toNat + k ≤ 0xFFF := by
  unfold InRange State.indexAddr
  omega

theorem commit_block_of_fits {s : State} {k : Nat} (hfit : s.i.toNat + k ≤ 0xFFF) (u : State) :
    commit s (afterRangeCheck (s.indexAddr 0) (k + 1) (nextInstr s u)) = .next (u.advance (s.pcNat + 2)) :=
  commit_afterRangeCheck_ok ((inRange_block_iff s k).mpr hfit) _

theorem commit_block_of_not_fits {s : State} {k : Nat} (h : 0xFFF < s.i.toNat + k) (r : Result) :
    commit s (afterRangeCheck (s.indexAddr 0) (k + 1) r) = .next (haltedWith s (firstBad s.i.toNat)) :=
  commit_afterRangeCheck_fault (fun hin => by have := (inRange_block_iff s k).mp hin; omega) r

/-! ## Stores (R202, R203) -/

@[simp] theorem advance_readMem (u : State) (q a : Nat) : (u.advance q).readMem a = u.readMem a := by
  simp [State.readMem]

/-- The `k`-th byte of a store that fits stands at the `k`-th address. -/
theorem readMem_storeBytes_inside {s : State} (hm : s.mem.wf) {a k : Nat} {bs : List Byte}
    (hfit : a + bs.length ≤ 0x1000) (hk : k < bs.length) : (s.storeBytes a bs).readMem (a + k) = bs.getD k 0 := by
  rw [readMem_storeBytes hm a bs _ hfit, if_pos (by omega), Nat.add_sub_cancel_left]

/-- A store that fits leaves every byte outside its addresses. -/
theorem readMem_storeBytes_outside {s : State} (hm : s.mem.wf) {a b : Nat} {bs : List Byte}
    (hfit : a + bs.length ≤ 0x1000) (hb : b < a ∨ a + bs.length ≤ b) :
    (s.storeBytes a bs).readMem b = s.readMem b := by
  rw [readMem_storeBytes hm a bs b hfit, if_neg (by omega)]

/-- A store of the three digits of a byte that fits puts the `k`-th digit at the `k`-th address (R202). -/
theorem toNat_readMem_storeBytes_bcdDigits {s : State} (hm : s.mem.wf) {a k : Nat} (hfit : a + 2 ≤ 0xFFF) (b : Byte)
    (hk : k < 3) :
    ((s.storeBytes a (bcdDigits b)).readMem (a + k)).toNat =
      if k = 0 then b.toNat / 100 else if k = 1 then b.toNat / 10 % 10 else if k = 2 then b.toNat % 10 else 0 := by
  have hlen : (bcdDigits b).length = 3 := rfl
  rw [readMem_storeBytes_inside hm (by omega) (by omega), bcdDigits_toNat]

/-- An Fx33 whose three addresses exist stores the digits and completes (R202). -/
theorem exec_ldBVx_of_fits {x : Reg} {s : State} (hfit : s.i.toNat + 2 ≤ 0xFFF) :
    exec (.ldBVx x) s = .next ((s.storeBytes s.i.toNat (bcdDigits (s.readV x))).advance (s.pcNat + 2)) :=
  commit_block_of_fits hfit _

/-- Settles O31: the digits are the bytes of one store of length 3. -/
theorem storeDecimalDigits : Obligations.StoreDecimalDigits := by
  refine ⟨encodedBy_of_row (row := ⟨.ldBVx, 0xF033, 0xF0FF⟩) (by decide) fun _ => rfl, fun x s hm hfit => ?_,
    fun x s h => commit_block_of_not_fits h _⟩
  have hdigit (k : Nat) (hk : k < 3) := toNat_readMem_storeBytes_bcdDigits hm hfit (s.readV x) hk
  have hlen : (bcdDigits (s.readV x)).length = 3 := rfl
  refine ⟨_, exec_ldBVx_of_fits hfit, ?hundreds, ?tens, ?ones, fun a ha => ?outside,
    advance_frame (storeBytes_frame s _ _) _, advance_completes rfl _⟩ <;> rw [advance_readMem]
  case hundreds => exact hdigit 0 (by decide)
  case tens => exact hdigit 1 (by decide)
  case ones => exact hdigit 2 (by decide)
  case outside => exact readMem_storeBytes_outside hm (by omega) (by omega)

/-- Settles O32: the block is one store of length `x + 1`. -/
theorem storeRegisterBlock : Obligations.StoreRegisterBlock := by
  refine ⟨encodedBy_of_row (row := ⟨.ldMemVx, 0xF055, 0xF0FF⟩) (by decide) fun _ => rfl, fun x s hm hfit => ?_,
    fun x s h => commit_block_of_not_fits h _⟩
  have hlen := regBlock_length s x
  have hexec := exec_ldMemVx_of_fits hfit
  refine ⟨_, hexec, fun k hk => readMem_of_exec_ldMemVx hm hfit hexec rfl hk, fun a ha => ?outside,
    advance_frame (storeBytes_frame s _ _) _, advance_completes rfl _⟩
  case outside => rw [advance_readMem, readMem_storeBytes_outside hm (by omega) (by omega)]

/-! ## Loads (R204) -/

/-- A load of `V[0]..V[x]` gives each of them its byte and keeps the registers above. -/
theorem readV_loadRegs_regsUpTo (s : State) (x k : Reg) :
    (s.loadRegs (regsUpTo x)).readV k = if k ≤ x then s.readMem (s.i.toNat + k.val) else s.readV k := by
  rw [(loadRegs_spec s _).1]
  exact if_congr (mem_regsUpTo x k) rfl rfl

/-- Settles O33: the load changes the register file alone, so its later reads see the memory and `I` it began with. -/
theorem loadRegisterBlock : Obligations.LoadRegisterBlock := by
  refine ⟨encodedBy_of_row (row := ⟨.ldVxMem, 0xF065, 0xF0FF⟩) (by decide) fun _ => rfl, fun x s hfit => ?_,
    fun x s h => commit_block_of_not_fits h _⟩
  have hchange := changesOnly_loadRegs s (regsUpTo x)
  refine ⟨_, commit_block_of_fits hfit _, fun k => ?regs, advance_frame (frame_of_changesOnly hchange) _,
    advance_completes hchange.rs _⟩
  case regs => rw [advance_readV, readV_loadRegs_regsUpTo]

end Sys2Proof.Machine

namespace Sys2Proof.Machine

/-! # Proofs about the display (44_display.md)

Dxyn checks the addresses of its sprite bytes and then draws or halts; `State.drawn` names the state it draws, and the
lemmas about the drawing loops (`drawSprite_spec`, `toggleAll_notes`) say its pixels, its `VF` and its notifications.
That a sink mirrors the framebuffer is kept by each toggle, so by the loops, so by every instruction and every step. -/

/-! ## Dxyn draws or halts (R64, R225) -/

/-- The state a Dxyn that does not fault leaves, before its `pc` advances. -/
def State.drawn (s : State) (x y : Reg) (n : BitVec 4) : State :=
  (s.setFb (drawSprite x y n s).fb).writeV VF (flagByte (drawSprite x y n s).collision)

/-- The sprite bytes all exist when they end by the top of memory, and when there are none. -/
theorem inRange_sprite_iff (s : State) (n : BitVec 4) :
    InRange (s.indexAddr 0) n.toNat ↔ s.i.toNat + n.toNat ≤ 0x1000 ∨ n = 0 := by
  have hzero : n = 0 ↔ n.toNat = 0 := BitVec.toNat_inj.symm
  rw [hzero]
  unfold InRange State.indexAddr
  omega

theorem not_inRange_sprite {s : State} {n : BitVec 4} (h : 0x1000 < s.i.toNat + n.toNat) (hn : n ≠ 0) :
    ¬InRange (s.indexAddr 0) n.toNat := by
  rw [inRange_sprite_iff]
  rintro (hfit | hzero)
  · omega
  · exact hn hzero

section
variable {s : State} {n : BitVec 4} (x y : Reg)

theorem exec_drw_of_inRange (h : InRange (s.indexAddr 0) n.toNat) :
    exec (.drw x y n) s = .next ((s.drawn x y n).advance (s.pcNat + 2)) :=
  commit_afterRangeCheck_ok h _

theorem exec_drw_of_not_inRange (h : ¬InRange (s.indexAddr 0) n.toNat) :
    exec (.drw x y n) s = .next (haltedWith s (firstBad s.i.toNat)) :=
  commit_afterRangeCheck_fault h _

theorem instrNotifications_drw_of_inRange (h : InRange (s.indexAddr 0) n.toNat) :
    instrNotifications (.drw x y n) s = (drawSprite x y n s).notes := by
  rw [instrNotifications, drawNotifications, rangeCheck_none h]

theorem instrNotifications_drw_of_not_inRange (h : ¬InRange (s.indexAddr 0) n.toNat) :
    instrNotifications (.drw x y n) s = [] := by
  rw [instrNotifications, drawNotifications, rangeCheck_some h]

end

/-! ## A sink mirrors the framebuffer (R230) -/

/-- A sink that held `fb` before the notifications of the canvas holds its framebuffer after them. -/
def Canvas.Mirrors (fb : Framebuffer) (c : Canvas) : Prop := c.notes.foldl Notification.render fb = c.fb

/-- A toggle notifies exactly the pixel it sets. -/
theorem mirrors_toggle {fb : Framebuffer} {c : Canvas} (h : c.Mirrors fb) (px py : Nat) :
    (c.toggle px py).Mirrors fb := by
  unfold Canvas.Mirrors at h
  unfold Canvas.toggle
  split
  · rw [Canvas.Mirrors, List.foldl_append, h]
    rfl
  · exact h

theorem mirrors_toggleAll {fb : Framebuffer} {c : Canvas} (h : c.Mirrors fb) (ps : List (Nat × Nat)) :
    (toggleAll ps c).Mirrors fb := by
  induction ps generalizing c with
  | nil => exact h
  | cons p ps ih => exact ih (mirrors_toggle h p.1 p.2)

theorem mirrors_drawSprite (x y : Reg) (n : BitVec 4) (s : State) : (drawSprite x y n s).Mirrors s.fb := by
  rw [drawSprite_eq]
  have hblank : Canvas.Mirrors s.fb ⟨s.fb, false, []⟩ := rfl
  exact mirrors_toggleAll hblank _

/-- Only instructions that may write the framebuffer notify the sink. -/
theorem instrNotifications_eq_nil {i : Instr} (h : .fb ∉ Instr.writtenParts i) (s : State) :
    instrNotifications i s = [] := by
  cases i with
  | cls => simp [Instr.writtenParts] at h
  | drw x y n => simp [Instr.writtenParts] at h
  | _ => rfl

theorem render_drw {x y : Reg} {n : BitVec 4} {s t : State} (h : exec (.drw x y n) s = .next t) :
    (instrNotifications (.drw x y n) s).foldl Notification.render s.fb = t.fb := by
  by_cases hr : InRange (s.indexAddr 0) n.toNat
  · cases (exec_drw_of_inRange x y hr).symm.trans h
    rw [instrNotifications_drw_of_inRange x y hr, advance_fb]
    exact mirrors_drawSprite x y n s
  · cases (exec_drw_of_not_inRange x y hr).symm.trans h
    rw [instrNotifications_drw_of_not_inRange x y hr]
    rfl

/-- Following the notifications of an instruction gives the framebuffer it leaves. -/
theorem render_instrNotifications {i : Instr} {s t : State} (h : exec i s = .next t) :
    (instrNotifications i s).foldl Notification.render s.fb = t.fb := by
  by_cases hfb : .fb ∈ Instr.writtenParts i
  · obtain rfl | ⟨x, y, n, rfl⟩ := (fb_mem_writtenParts i).mp hfb
    · cases (exec_cls s).symm.trans h
      rw [advance_fb]
      rfl
    · exact render_drw h
  · have hsame : t.fb = s.fb := exec_samePart h hfb
    rw [instrNotifications_eq_nil hfb, hsame]
    rfl

theorem stepNotifications_of_instr {s : State} {w : Word} {i : Instr} (hr : s.rs = .running) (hf : fetch s = .ok w)
    (hd : decodeWord w = some i) : stepNotifications s = instrNotifications i s := by
  simp only [stepNotifications, hr, hf, hd]

theorem stepNotifications_not_running {s : State} (hr : s.rs ≠ .running) : stepNotifications s = [] := by
  unfold stepNotifications
  split
  · next h => exact absurd h hr
  · rfl
  · rfl

/-- Settles O38: an instruction's notifications give its framebuffer, and every other step keeps the framebuffer and
notifies the sink of no pixel. -/
theorem notificationsMirrorTheFramebuffer : Obligations.NotificationsMirrorTheFramebuffer := by
  intro s t h
  by_cases hr : s.rs = .running
  · rcases step_running_cases hr with ⟨hpc, hstep⟩ | ⟨w, hf, hd, hstep⟩ | ⟨w, i, hf, hd, hstep⟩
    · cases hstep.symm.trans h
      rw [stepNotifications_of_fetch_error hr (fetch_error hpc)]
      rfl
    · cases hstep.symm.trans h
      rw [stepNotifications_of_unknown hr hf hd, advance_fb]
      rfl
    · rw [stepNotifications_of_instr hr hf hd]
      exact render_instrNotifications (hstep.symm.trans h)
  · cases (step_not_running hr).symm.trans h
    rw [stepNotifications_not_running hr]
    rfl

/-! ## The pixels and `VF` of a drawn sprite (R225 to R228) -/

@[simp] theorem advance_fbRead (u : State) (q : Nat) (px : Fin 64) (py : Fin 32) :
    (u.advance q).fbRead px py = u.fbRead px py := by
  simp [State.fbRead]

theorem drawn_fbRead (s : State) (x y : Reg) (n : BitVec 4) (px : Fin 64) (py : Fin 32) :
    (s.drawn x y n).fbRead px py = Bool.xor (s.fbRead px py) (spriteBit s x y n px py) :=
  (drawSprite_spec x y n s).1 px py

theorem drawn_readV_VF (s : State) (x y : Reg) (n : BitVec 4) :
    (s.drawn x y n).readV VF = flagByte (drawSprite x y n s).collision :=
  readV_writeV_same _ VF _

theorem drawn_readV_VF_eq_one_iff (s : State) (x y : Reg) (n : BitVec 4) :
    (s.drawn x y n).readV VF = 1 ↔
      ∃ (px : Fin 64) (py : Fin 32), s.fbRead px py = true ∧ spriteBit s x y n px py = true := by
  rw [drawn_readV_VF, flagByte_eq_one_iff]
  exact (drawSprite_spec x y n s).2

theorem drawn_readV_VF_cases (s : State) (x y : Reg) (n : BitVec 4) :
    (s.drawn x y n).readV VF = 1 ∨ (s.drawn x y n).readV VF = 0 := by
  rw [drawn_readV_VF]
  exact flagByte_cases _

theorem drawn_readV_of_ne (s : State) (x y : Reg) (n : BitVec 4) {r : Reg} (hr : r ≠ VF) :
    (s.drawn x y n).readV r = s.readV r :=
  readV_writeV_other _ _ hr

theorem drawn_frame (s : State) (x y : Reg) (n : BitVec 4) : Frame [.v, .fb] s (s.drawn x y n) :=
  frame_of_changesOnly (changesOnly_drawing s _ _)

/-- Settles O36: in range the committed state is `State.drawn`, out of range it is the halt. -/
theorem drwTogglesTheSpritePixels : Obligations.DrwTogglesTheSpritePixels := by
  refine ⟨encodedBy_of_row (row := ⟨.drw, 0xD000, 0xF000⟩) (by decide) fun _ => rfl, fun x y n s hfit => ?fits,
    fun x y n s h hn => exec_drw_of_not_inRange x y (not_inRange_sprite h hn)⟩
  case fits =>
    refine ⟨_, exec_drw_of_inRange x y ((inRange_sprite_iff s n).mpr hfit), ?_⟩
    simp only [advance_fbRead, advance_readV]
    exact ⟨drawn_fbRead s x y n, drawn_readV_VF_eq_one_iff s x y n, drawn_readV_VF_cases s x y n,
      fun r => drawn_readV_of_ne s x y n, advance_frame (drawn_frame s x y n) _, advance_completes rfl _⟩

/-! ## The notifications of Dxyn in drawing order (R230) -/

/-- The pixels of a sprite, row by row. -/
theorem spritePixels_eq_flatMap (vx vy : Nat) (bs : List Byte) :
    spritePixels vx vy bs =
      (List.range bs.length).flatMap fun row => rowPixels (bs.getD row 0) vx (vy + row) (List.range 8) := by
  induction bs generalizing vy with
  | nil => rfl
  | cons b bs ih =>
    rw [spritePixels, ih, List.length_cons, List.range_succ_eq_map (n := bs.length), List.flatMap_cons,
      List.flatMap_map]
    simp [Nat.add_right_comm, Nat.add_assoc]

/-- The notifications of one row byte, column by column. -/
theorem flatMap_rowPixels (b : Byte) (vx py : Nat) (ks : List Nat) (note : Nat × Nat → List Notification) :
    (rowPixels b vx py ks).flatMap note =
      ks.flatMap fun col => if b.getLsbD (7 - col) then note (vx + col, py) else [] := by
  induction ks with
  | nil => rfl
  | cons k ks ih =>
    rw [List.flatMap_cons, ← ih]
    cases hb : b.getLsbD (7 - k) <;> simp [rowPixels, hb]

theorem drawSprite_notes (x y : Reg) (n : BitVec 4) (s : State) :
    (drawSprite x y n s).notes =
      (List.range n.toNat).flatMap fun row => (List.range 8).flatMap fun col =>
        if (s.readMem (s.i.toNat + row)).getLsbD (7 - col) then
          pixelNote s.fb ((s.readV x).toNat + col, (s.readV y).toNat + row)
        else [] := by
  rw [drawSprite_eq, toggleAll_notes _ (nodup_spritePixels _ _ _), List.nil_append, spritePixels_eq_flatMap,
    readBytes_length, List.flatMap_assoc]
  refine List.flatMap_congr fun row hrow => ?_
  rw [flatMap_rowPixels, readBytes_getD _ _ _ _ (List.mem_range.mp hrow)]
  rfl

/-- Settles O37: each on-screen sprite bit 1 gives the `pixelNote` of its pixel. -/
theorem drwNotifiesEachToggledPixelInOrder : Obligations.DrwNotifiesEachToggledPixelInOrder := by
  refine fun x y n s => ⟨fun hfit => ?fits,
    fun h hn => instrNotifications_drw_of_not_inRange x y (not_inRange_sprite h hn)⟩
  case fits =>
    rw [instrNotifications_drw_of_inRange x y ((inRange_sprite_iff s n).mpr hfit), drawSprite_notes]
    refine List.flatMap_congr fun row _ => List.flatMap_congr fun col _ => ?_
    unfold pixelNote
    split <;> split <;> rfl

/-! ## Drawing twice (R229) -/

/-- The sprite bits depend on the two coordinates, on `I` and on the sprite bytes alone. -/
theorem spriteBit_congr {x y : Reg} {n : BitVec 4} {s u : State} (hx : u.readV x = s.readV x)
    (hy : u.readV y = s.readV y) (hi : u.i = s.i)
    (hm : ∀ k, k < n.toNat → u.readMem (s.i.toNat + k) = s.readMem (s.i.toNat + k)) (px py : Nat) :
    spriteBit u x y n px py = spriteBit s x y n px py := by
  unfold spriteBit
  rw [hx, hy, hi]
  rw [Bool.eq_iff_iff, Bool.and_eq_true, Bool.and_eq_true]
  refine and_congr_right fun hinside => ?_
  obtain ⟨-, -, htop, hbottom⟩ := of_decide_eq_true hinside
  rw [hm _ (by omega)]

/-- Settles O39: a second toggle of the same pixels undoes the first, and collides where the first turned one on. -/
theorem drawingTwiceRestoresTheFramebuffer : Obligations.DrawingTwiceRestoresTheFramebuffer := by
  intro x y n s t u hfit hexec hfb hx hy hi hm
  cases (exec_drw_of_inRange x y ((inRange_sprite_iff s n).mpr hfit)).symm.trans hexec
  have hbit := spriteBit_congr hx hy hi hm
  have hread (px : Fin 64) (py : Fin 32) : u.fbRead px py = Bool.xor (s.fbRead px py) (spriteBit s x y n px py) := by
    rw [← drawn_fbRead, State.fbRead, hfb, advance_fb]
    rfl
  refine ⟨_, exec_drw_of_inRange x y ((inRange_sprite_iff u n).mpr (hi ▸ hfit)), ?_⟩
  simp only [advance_fb, advance_readV]
  refine ⟨?restored, ?collision, drawn_readV_VF_cases u x y n⟩
  case restored =>
    refine fb_ext fun px py => (drawn_fbRead u x y n px py).trans ?_
    rw [hread, hbit, Bool.xor_assoc, Bool.xor_self, Bool.xor_false]
    rfl
  case collision =>
    rw [drawn_readV_VF_eq_one_iff]
    refine exists_congr fun px => exists_congr fun py => ?_
    rw [hread, hbit]
    cases s.fbRead px py <;> cases spriteBit s x y n px py <;> decide

/-! ## Clearing the screen (R224) -/

theorem fbClear_fbRead (s : State) (px : Fin 64) (py : Fin 32) : s.fbClear.fbRead px py = false := by
  simp [State.fbRead, clearFb]

/-- Settles O35: the clear is the one staged write. -/
theorem clsClearsTheFramebuffer : Obligations.ClsClearsTheFramebuffer := by
  refine ⟨encodedBy_of_row (row := ⟨.cls, 0x00E0, 0xFFFF⟩) (by decide) fun _ => rfl, fun s => ⟨?_, rfl⟩⟩
  refine ⟨_, exec_cls s, fun px py => ?_, advance_frame (frame_of_changesOnly (changesOnly_fbClear s)) _,
    advance_completes rfl _⟩
  rw [advance_fbRead, fbClear_fbRead]

end Sys2Proof.Machine

namespace Sys2Proof.Machine

/-! # Proofs about timers and key input (45_timers_input.md)

A tick replaces the two timers and nothing else, so what an interleaving with ticks can show is what depends on the
values of the timers. A waiting core is left by ticks and steps with other timers only (`hostRun_of_waiting`), and every
instruction but Fx07, Fx15 and Fx18 runs the same under any timers (`exec_withTimers`). -/

/-! ## The two timers replaced -/

/-- The state with the timers replaced. -/
def State.withTimers (s : State) (d e : Byte) : State := { s with dt := d, st := e }

@[simp] theorem withTimers_pc (s : State) (d e : Byte) : (s.withTimers d e).pc = s.pc := rfl

@[simp] theorem withTimers_params (s : State) (d e : Byte) : (s.withTimers d e).params = s.params := rfl

theorem changesOnly_withTimers (s : State) (d e : Byte) : ChangesOnly [.dt, .st] s (s.withTimers d e) :=
  ⟨fun p hp => by cases p <;> simp_all [SamePart, State.withTimers], rfl, rfl⟩

theorem advance_withTimers (u : State) (d e : Byte) (q : Nat) :
    (u.withTimers d e).advance q = (u.advance q).withTimers d e := by
  unfold State.advance
  split <;> rfl

/-! ## Timer loads (R242, R243) -/

/-- Settles O40: each load is the one staged write. -/
theorem timerLoads : Obligations.TimerLoads := by
  refine ⟨encodedBy_of_row (row := ⟨.ldDtVx, 0xF015, 0xF0FF⟩) (by decide) fun _ => rfl,
    encodedBy_of_row (row := ⟨.ldStVx, 0xF018, 0xF0FF⟩) (by decide) fun _ => rfl, fun x s => ⟨?delay, ?sound⟩⟩
  case delay =>
    exact ⟨_, exec_ldDtVx x s, advance_dt _ _, advance_frame (frame_of_changesOnly (changesOnly_writeDt s _)) _,
      advance_completes rfl _⟩
  case sound =>
    exact ⟨_, exec_ldStVx x s, advance_st _ _, advance_frame (frame_of_changesOnly (changesOnly_writeSt s _)) _,
      advance_completes rfl _⟩

/-! ## Ticks (R245) -/

/-- The clamp at 0 is the truncated subtraction. -/
theorem tickTimer_toNat (b : Byte) : (tickTimer b).toNat = b.toNat - 1 := by
  have hb := b.isLt
  unfold tickTimer
  split
  · rw [BitVec.toNat_ofNat, Nat.mod_eq_of_lt (by omega)]
  · omega

theorem tickOp_of_not_halted {s : State} (h : ∀ c, s.rs ≠ .halted c) :
    tickOp s = s.withTimers (tickTimer s.dt) (tickTimer s.st) := by
  unfold tickOp
  split
  · rfl
  · rfl
  · next c hc => exact absurd hc (h c)

/-- Settles O43: in `Halted` a tick is the identity, elsewhere it replaces the timers by the ones counted down. -/
theorem tickDecrementsAndClamps : Obligations.TickDecrementsAndClamps := by
  intro s
  refine ⟨tickOp s, rfl, ?_⟩
  by_cases h : ∃ c, s.rs = .halted c
  · obtain ⟨c, hc⟩ := h
    rw [tickOp_of_halted hc]
    exact ⟨frame_refl _ s, rfl, rfl, fun hn => absurd hc (hn c), fun _ _ => ⟨rfl, rfl⟩⟩
  · have hn : ∀ c, s.rs ≠ .halted c := not_exists.mp h
    rw [tickOp_of_not_halted hn]
    exact ⟨frame_of_changesOnly (changesOnly_withTimers s _ _), rfl, rfl,
      fun _ => ⟨tickTimer_toNat s.dt, tickTimer_toNat s.st⟩, fun c hc => absurd hc (hn c)⟩

/-! ## A key ends the wait (R244) -/

/-- The run state is outside every frame. -/
theorem frame_setRs (changed : List Part) (s : State) (r : RunState) : Frame changed s (s.setRs r) :=
  frame_refl changed s

/-- What a key in `AwaitingKey(x)` leaves. -/
theorem keyOp_completes {s : State} {x : Reg} (k : BitVec 4) (h : s.rs = .awaitingKey x) :
    ((keyOp k s).readV x).toNat = k.toNat ∧ (∀ r, r ≠ x → (keyOp k s).readV r = s.readV r) ∧
      Frame [.v] s (keyOp k s) ∧ (keyOp k s).pc = BitVec.ofNat 16 (s.pc.toNat + 2) ∧
      (keyOp k s).rs = if s.pc.toNat + 2 > 0xFFF then .halted .endOfMemory else .running := by
  rw [keyOp_of_awaiting k h]
  refine ⟨?key, fun r hr => ?other, advance_frame ?frame _, advance_pc _ _, advance_rs _ _⟩
  case key =>
    rw [advance_readV]
    exact (congrArg BitVec.toNat (readV_writeV_same s x _)).trans (BitVec.toNat_setWidth_of_le (by decide))
  case other =>
    rw [advance_readV]
    exact readV_writeV_other s _ hr
  case frame => exact frame_trans (writeV_frame s x _) (frame_setRs _ _ _)

/-- Settles O42: the host operation is `keyOp`. -/
theorem keyCompletesTheWait : Obligations.KeyCompletesTheWait := fun s _ k h => ⟨keyOp k s, rfl, keyOp_completes k h⟩

/-! ## The wait over a run (R241) -/

theorem hostRun_cons_of_next {op : HostOp} {s t : State} (h : hostOp op s = .next t) (ops : List HostOp) :
    hostRun (op :: ops) s = hostRun ops t := by
  rw [hostRun, h]

theorem hostRun_append (ops ops' : List HostOp) (s : State) :
    hostRun (ops ++ ops') s = hostRun ops' (hostRun ops s) := by
  induction ops generalizing s with
  | nil => rfl
  | cons op ops ih =>
    rw [List.cons_append, hostRun, hostRun]
    split <;> exact ih _

/-- One tick, step or read leaves a waiting core with other timers at most. -/
theorem hostOp_of_waiting {op : HostOp} {s : State} {x : Reg} (hr : s.rs = .awaitingKey x)
    (hop : op = .tick ∨ op = .step ∨ op = .read) : ∃ d e, hostOp op s = .next (s.withTimers d e) := by
  rcases hop with rfl | rfl | rfl
  · exact ⟨_, _, congrArg Host.Outcome.next (tickOp_of_not_halted (by simp [hr]))⟩
  · exact ⟨s.dt, s.st, step_not_running (by simp [hr])⟩
  · exact ⟨s.dt, s.st, rfl⟩

/-- So does any sequence of them, by induction over the sequence. -/
theorem hostRun_of_waiting {ops : List HostOp} {s : State} {x : Reg} (hr : s.rs = .awaitingKey x)
    (hops : ∀ op ∈ ops, op = .tick ∨ op = .step ∨ op = .read) : ∃ d e, hostRun ops s = s.withTimers d e := by
  induction ops generalizing s with
  | nil => exact ⟨s.dt, s.st, rfl⟩
  | cons op ops ih =>
    obtain ⟨hop, hrest⟩ := List.forall_mem_cons.mp hops
    obtain ⟨d, e, hnext⟩ := hostOp_of_waiting hr hop
    rw [hostRun_cons_of_next hnext]
    exact ih (s := s.withTimers d e) hr hrest

/-- Settles O41: the sequence leaves the waiting state with other timers, and the key completes the wait from there. -/
theorem keyWaitAndResume : Obligations.KeyWaitAndResume := by
  refine ⟨encodedBy_of_row (row := ⟨.ldVxK, 0xF00A, 0xF0FF⟩) (by decide) fun _ => rfl,
    fun x s => ⟨exec_ldVxK x s, fun ops k hops => ?_⟩⟩
  obtain ⟨d, e, hrun⟩ := hostRun_of_waiting (s := s.setRs (.awaitingKey x)) rfl hops
  have hkey : keyOp k ((s.setRs (.awaitingKey x)).withTimers d e) =
      hostRun (ops ++ [.key k]) (s.setRs (.awaitingKey x)) := by
    rw [hostRun_append, hrun]
    rfl
  have hwait : Frame [.dt, .st] s ((s.setRs (.awaitingKey x)).withTimers d e) :=
    frame_trans (frame_setRs _ s _) (frame_of_changesOnly (changesOnly_withTimers _ d e))
  obtain ⟨hx, hother, hframe, hpc, hrs⟩ :=
    keyOp_completes (s := (s.setRs (.awaitingKey x)).withTimers d e) k rfl
  exact ⟨_, hkey, hx, hother, frame_trans (frame_mono hwait (by simp)) (frame_mono hframe (by simp)), hpc, hrs⟩

/-! ## One instruction under other timers (R246) -/

/-- The instructions that read or write a timer. -/
def Instr.UsesTimers (i : Instr) : Prop := ∃ x, i = .ldVxDt x ∨ i = .ldDtVx x ∨ i = .ldStVx x

/-- The outcome with the timers of its staged state replaced. -/
def Result.withTimers (d e : Byte) : Result → Result
  | .next q u => .next q (u.withTimers d e)
  | .await x => .await x
  | .fault c => .fault c

theorem commit_withTimers {s t : State} {a : Result} (d e : Byte) (h : commit s a = .next t) :
    commit (s.withTimers d e) (a.withTimers d e) = .next (t.withTimers d e) := by
  rcases commit_cases h with ⟨q, u, rfl, rfl⟩ | ⟨x, rfl, rfl⟩ | ⟨c, rfl, rfl⟩
  · exact congrArg Host.Outcome.next (advance_withTimers u d e q)
  · rfl
  · rfl

section
variable (s : State) (d e : Byte)

theorem afterRangeCheck_withTimers (a n : Nat) (r : Result) :
    (afterRangeCheck a n r).withTimers d e = afterRangeCheck a n (r.withTimers d e) := by
  unfold afterRangeCheck
  split <;> rfl

theorem skipIf_withTimers (c : Bool) : (skipIf s c).withTimers d e = skipIf (s.withTimers d e) c := by
  cases c <;> rfl

theorem writeFlagged_withTimers (x : Reg) (r : Byte) (f : Bool) :
    (s.withTimers d e).writeFlagged x r f = (s.writeFlagged x r f).withTimers d e := by
  unfold State.writeFlagged
  rw [withTimers_params]
  split <;> rfl

theorem writeAlu_withTimers (x : Reg) (o : Byte × Option Bool) :
    (s.withTimers d e).writeAlu x o = (s.writeAlu x o).withTimers d e := by
  obtain ⟨r, _ | f⟩ := o
  · rfl
  · exact writeFlagged_withTimers s d e x r f

theorem aluInstr_withTimers (fn : AluFn) (x : Reg) (b : Byte) :
    (aluInstr fn x b s).withTimers d e = aluInstr fn x b (s.withTimers d e) := by
  rw [aluInstr, aluInstr, writeAlu_withTimers]
  rfl

theorem loadRegs_withTimers (l : List Reg) : (s.withTimers d e).loadRegs l = (s.loadRegs l).withTimers d e := by
  induction l generalizing s with
  | nil => rfl
  | cons k l ih => exact ih (s.writeV k (s.readMem (s.indexAddr k.val)))

theorem pop_withTimers : (s.withTimers d e).pop = s.pop.map fun p => (p.1, p.2.withTimers d e) := by
  unfold State.pop State.withTimers
  split <;> rfl

theorem push_withTimers (a : Word) : (s.withTimers d e).push a = (s.push a).map fun u => u.withTimers d e := by
  unfold State.push State.withTimers
  split <;> rfl

/-- An instruction that uses no timer has the same outcome under any timers, and leaves them as they are. -/
theorem exec_commit_withTimers {i : Instr} (hi : ¬Instr.UsesTimers i) :
    ∃ a, exec i s = commit s a ∧ exec i (s.withTimers d e) = commit (s.withTimers d e) (a.withTimers d e) := by
  cases i with
  | cls => exact ⟨_, exec_cls s, exec_cls _⟩
  | ret =>
    refine ⟨_, exec_ret s, ?_⟩
    rw [exec_ret, pop_withTimers]
    cases s.pop <;> rfl
  | jp nnn => exact ⟨_, exec_jp nnn s, exec_jp nnn _⟩
  | call nnn =>
    refine ⟨_, exec_call nnn s, ?_⟩
    rw [exec_call, push_withTimers, withTimers_pc]
    cases s.push s.pc <;> rfl
  | seVxKk x kk => exact ⟨_, exec_seVxKk x kk s, by rw [skipIf_withTimers]; rfl⟩
  | sneVxKk x kk => exact ⟨_, exec_sneVxKk x kk s, by rw [skipIf_withTimers]; rfl⟩
  | seVxVy x y => exact ⟨_, exec_seVxVy x y s, by rw [skipIf_withTimers]; rfl⟩
  | sneVxVy x y => exact ⟨_, exec_sneVxVy x y s, by rw [skipIf_withTimers]; rfl⟩
  | ldVxKk x kk => exact ⟨_, exec_ldVxKk x kk s, exec_ldVxKk x kk _⟩
  | addVxKk x kk => exact ⟨_, exec_addVxKk x kk s, by rw [aluInstr_withTimers]; rfl⟩
  | ldVxVy x y => exact ⟨_, exec_ldVxVy x y s, by rw [aluInstr_withTimers]; rfl⟩
  | orVxVy x y => exact ⟨_, exec_orVxVy x y s, by rw [aluInstr_withTimers]; rfl⟩
  | andVxVy x y => exact ⟨_, exec_andVxVy x y s, by rw [aluInstr_withTimers]; rfl⟩
  | xorVxVy x y => exact ⟨_, exec_xorVxVy x y s, by rw [aluInstr_withTimers]; rfl⟩
  | addVxVy x y => exact ⟨_, exec_addVxVy x y s, by rw [aluInstr_withTimers]; rfl⟩
  | subVxVy x y => exact ⟨_, exec_subVxVy x y s, by rw [aluInstr_withTimers]; rfl⟩
  | shrVx x y => exact ⟨_, exec_shrVx x y s, by rw [aluInstr_withTimers]; rfl⟩
  | subnVxVy x y => exact ⟨_, exec_subnVxVy x y s, by rw [aluInstr_withTimers]; rfl⟩
  | shlVx x y => exact ⟨_, exec_shlVx x y s, by rw [aluInstr_withTimers]; rfl⟩
  | ldINnn nnn => exact ⟨_, exec_ldINnn nnn s, exec_ldINnn nnn _⟩
  | drw x y n => exact ⟨_, exec_drw x y n s, by rw [afterRangeCheck_withTimers]; rfl⟩
  | ldVxDt x => exact absurd ⟨x, .inl rfl⟩ hi
  | ldVxK x => exact ⟨_, exec_ldVxK x s, exec_ldVxK x _⟩
  | ldDtVx x => exact absurd ⟨x, .inr (.inl rfl)⟩ hi
  | ldStVx x => exact absurd ⟨x, .inr (.inr rfl)⟩ hi
  | ldFVx x => exact ⟨_, exec_ldFVx x s, exec_ldFVx x _⟩
  | ldBVx x => exact ⟨_, exec_ldBVx x s, by rw [afterRangeCheck_withTimers]; rfl⟩
  | ldMemVx x => exact ⟨_, exec_ldMemVx x s, by rw [afterRangeCheck_withTimers]; rfl⟩
  | ldVxMem x =>
    refine ⟨_, exec_ldVxMem x s, ?_⟩
    rw [exec_ldVxMem, afterRangeCheck_withTimers, loadRegs_withTimers]
    rfl

end

theorem exec_withTimers {i : Instr} {s t : State} (hi : ¬Instr.UsesTimers i) (d e : Byte) (h : exec i s = .next t) :
    exec i (s.withTimers d e) = .next (t.withTimers d e) := by
  obtain ⟨a, ha, ha'⟩ := exec_commit_withTimers s d e hi
  exact ha'.trans (commit_withTimers d e (ha.symm.trans h))

/-! ## A tick and a step (R246) -/

section
variable {s t : State} (hr : s.rs = .running) (h : step s = .next t)
  (hi : ∀ w i, fetch s = .ok w → decodeWord w = some i → ¬Instr.UsesTimers i)
include hr h hi

/-- A step that executes no timer instruction goes the same way under any timers. -/
theorem step_withTimers (d e : Byte) : step (s.withTimers d e) = .next (t.withTimers d e) := by
  rcases step_running_cases hr with ⟨hpc, hstep⟩ | ⟨w, hf, hd, hstep⟩ | ⟨w, i, hf, hd, hstep⟩
  · cases hstep.symm.trans h
    exact step_of_fetch_error (s := s.withTimers d e) hr (fetch_error hpc)
  · cases hstep.symm.trans h
    rw [← advance_withTimers]
    exact step_of_unknown (s := s.withTimers d e) hr hf hd
  · rw [step_of_instr (s := s.withTimers d e) hr hf hd]
    exact exec_withTimers (hi w i hf hd) d e (hstep.symm.trans h)

/-- And it leaves both timers as they are. -/
theorem step_timers : t.dt = s.dt ∧ t.st = s.st := by
  rcases step_running_cases hr with ⟨-, hstep⟩ | ⟨w, -, -, hstep⟩ | ⟨w, i, hf, hd, hstep⟩
  · cases hstep.symm.trans h
    exact ⟨rfl, rfl⟩
  · cases hstep.symm.trans h
    exact ⟨advance_dt s _, advance_st s _⟩
  · have hexec : exec i s = .next t := hstep.symm.trans h
    have hn : ¬Instr.UsesTimers i := hi w i hf hd
    refine ⟨exec_samePart (p := .dt) hexec fun hdt => ?_, exec_samePart (p := .st) hexec fun hst => ?_⟩
    · obtain ⟨x, hx⟩ := (dt_mem_writtenParts i).mp hdt
      exact hn ⟨x, .inr (.inl hx)⟩
    · obtain ⟨x, hx⟩ := (st_mem_writtenParts i).mp hst
      exact hn ⟨x, .inr (.inr hx)⟩

end

/-- Settles O44: both ticks count down the timers that the step leaves alone, and the step does not see them. -/
theorem ticksCommuteWithOtherSteps : Obligations.TicksCommuteWithOtherSteps := by
  intro s t hr h hhalt hother
  have hi : ∀ w i, fetch s = .ok w → decodeWord w = some i → ¬Instr.UsesTimers i := by
    rintro w i hf hd ⟨x, hx⟩
    obtain ⟨hread, hdt, hst⟩ := hother w x hf
    rcases hx with rfl | rfl | rfl
    · exact hread hd
    · exact hdt hd
    · exact hst hd
  obtain ⟨hdt, hst⟩ := step_timers hr h hi
  rw [tickOp_of_not_halted (by simp [hr]), tickOp_of_not_halted hhalt, hdt, hst]
  exact step_withTimers hr h hi _ _

end Sys2Proof.Machine

namespace Sys2Proof.Machine

/-! # Proofs about exceptions (60_exceptions.md)

`Instr.faultOf` is the table of fatal errors: the cause each instruction raises, if it raises one. An instruction with a
cause is taken as its halt (`exec_of_faultOf`), one without leaves a safe run state (`exec_safe_of_no_fault`); so a step
halts with a fatal cause exactly when its fetch or its instruction raises it (`step_halted_iff`). -/

/-! ## The fault an instruction raises (R261 to R263) -/

/-- The fatal error that an instruction raises on a state, if any (R261 to R263). -/
def Instr.faultOf (i : Instr) (s : State) : Option HaltCause :=
  match i with
  | .call _ => if s.sp.val = 16 then some .stackOverflow else none
  | .ret => if s.sp.val = 0 then some .stackUnderflow else none
  | .ldBVx _ => rangeCheck (s.indexAddr 0) 3
  | .ldMemVx x | .ldVxMem x => rangeCheck (s.indexAddr 0) (x.val + 1)
  | .drw _ _ n => rangeCheck (s.indexAddr 0) n.toNat
  | _ => none

theorem commit_afterRangeCheck_of_some {s : State} {a n : Nat} {c : HaltCause} (h : rangeCheck a n = some c)
    (r : Result) : commit s (afterRangeCheck a n r) = .next (haltedWith s c) := by
  simp only [afterRangeCheck, h]
  rfl

/-- An instruction that raises a fault is taken as its halt. -/
theorem exec_of_faultOf {i : Instr} {s : State} {c : HaltCause} (hf : Instr.faultOf i s = some c) :
    exec i s = .next (haltedWith s c) := by
  cases i with
  | ret =>
    obtain ⟨hsp, ⟨⟩⟩ := Option.ite_none_right_eq_some.mp hf
    rw [exec_ret, (pop_eq_none_iff s).mpr hsp]
    rfl
  | call nnn =>
    obtain ⟨hsp, ⟨⟩⟩ := Option.ite_none_right_eq_some.mp hf
    rw [exec_call, (push_eq_none_iff s s.pc).mpr hsp]
    rfl
  | ldBVx | ldMemVx | ldVxMem | drw => exact commit_afterRangeCheck_of_some hf _
  | _ => cases hf

/-! ## An instruction that raises none (R126, R127) -/

theorem ne_halted_of_safe {rs : RunState} {c : HaltCause} (hc : c.fatal) (h : rs.safe) : rs ≠ .halted c := by
  rintro rfl
  exact h hc

section
variable {s t : State} (hr : s.rs = .running)
include hr

theorem safe_of_commit_next {q : Nat} {u : State} (h : commit s (.next q u) = .next t) (hu : u.rs = s.rs) :
    t.rs.safe := by
  cases h
  rcases advance_completed (hu.trans hr) q with hrun | hend
  · rw [hrun]; trivial
  · rw [hend]; exact id

theorem safe_of_commit_skipIf {b : Bool} (h : commit s (skipIf s b) = .next t) : t.rs.safe := by
  cases b <;> exact safe_of_commit_next hr h rfl

theorem safe_of_commit_afterRangeCheck {a n : Nat} {u : State}
    (h : commit s (afterRangeCheck a n (nextInstr s u)) = .next t) (hn : rangeCheck a n = none) (hu : u.rs = s.rs) :
    t.rs.safe := by
  rw [commit_afterRangeCheck_ok ((rangeCheck_eq_none_iff a n).mp hn)] at h
  exact safe_of_commit_next hr h hu

/-- An instruction that raises no fault runs on, waits, or ends at the end of memory. -/
theorem exec_safe_of_no_fault {i : Instr} (hf : Instr.faultOf i s = none) (h : exec i s = .next t) : t.rs.safe := by
  cases i with
  | ret =>
    rw [exec_ret] at h
    cases hp : s.pop with
    | none => simp [Instr.faultOf, (pop_eq_none_iff s).mp hp] at hf
    | some p =>
      obtain ⟨-, -, -, hu⟩ := pop_some hp
      rw [hp] at h
      exact safe_of_commit_next hr h (by rw [hu])
  | call nnn =>
    rw [exec_call] at h
    cases hp : s.push s.pc with
    | none => simp [Instr.faultOf, (push_eq_none_iff s _).mp hp] at hf
    | some u =>
      rw [hp] at h
      exact safe_of_commit_next hr h (push_changesOnly hp).rs
  | ldBVx | ldMemVx | drw => exact safe_of_commit_afterRangeCheck hr h hf rfl
  | ldVxMem x => exact safe_of_commit_afterRangeCheck hr h hf (changesOnly_loadRegs s _).rs
  | ldVxK x => cases h; trivial
  | seVxKk | sneVxKk | seVxVy | sneVxVy => exact safe_of_commit_skipIf hr h
  | addVxKk | ldVxVy | orVxVy | andVxVy | xorVxVy | addVxVy | subVxVy | shrVx | subnVxVy | shlVx =>
    exact safe_of_commit_next hr h (changesOnly_writeAlu s _ _).rs
  | cls | jp | ldVxKk | ldINnn | ldVxDt | ldDtVx | ldStVx | ldFVx => exact safe_of_commit_next hr h rfl

/-! ## Where a fatal halt comes from (R130, R266) -/

theorem exec_halted_iff {i : Instr} {c : HaltCause} (hc : c.fatal) (h : exec i s = .next t) :
    t.rs = .halted c ↔ Instr.faultOf i s = some c := by
  cases hf : Instr.faultOf i s with
  | none => exact iff_of_false (ne_halted_of_safe hc (exec_safe_of_no_fault hr hf h)) nofun
  | some d =>
    cases (exec_of_faultOf hf).symm.trans h
    simp [haltedWith]

/-- A step halts with a fatal cause exactly when its fetch or its instruction raises that cause. -/
theorem step_halted_iff {c : HaltCause} (hc : c.fatal) (h : step s = .next t) :
    t.rs = .halted c ↔
      fetch s = .error c ∨ ∃ w i, fetch s = .ok w ∧ decodeWord w = some i ∧ Instr.faultOf i s = some c := by
  rcases hf : fetch s with d | w
  · cases (step_of_fetch_error hr hf).symm.trans h
    simp [haltedWith]
  · cases hd : decodeWord w with
    | none =>
      have hsafe : t.rs.safe := safe_of_commit_next hr ((step_of_unknown hr hf hd).symm.trans h) rfl
      simp [hd, ne_halted_of_safe hc hsafe]
    | some i => simp [hd, exec_halted_iff hr hc ((step_of_instr hr hf hd).symm.trans h)]

end

/-! ## Each cause and its instructions (R261 to R263) -/

/-- A failing check of `n` addresses from `a`, with `a` in memory, records 0x1000 (R64). -/
theorem rangeCheck_eq_some_iff {a : Nat} (ha : a ≤ 0xFFF) (n : Nat) (c : HaltCause) :
    rangeCheck a n = some c ↔ c = .addressOutOfRange 0x1000 ∧ 0x1000 < a + n := by
  have hin : InRange a n ↔ a + n ≤ 0x1000 := by unfold InRange; omega
  by_cases hr : InRange a n
  · have hle := hin.mp hr
    exact iff_of_false (by simp [rangeCheck_none hr]) fun ⟨_, hlt⟩ => by omega
  · have hlt : 0x1000 < a + n := Nat.lt_of_not_le (mt hin.mpr hr)
    simp [rangeCheck_some hr, firstBad_of_le ha, hlt, eq_comm]

theorem fetch_eq_error_iff {s : State} (hpc : s.pc.toNat ≤ 0xFFF) (c : HaltCause) :
    fetch s = .error c ↔ c = .addressOutOfRange 0x1000 ∧ s.pc = 0xFFF := by
  have htop : s.pc = 0xFFF ↔ s.pc.toNat = 0xFFF := BitVec.toNat_inj.symm
  rw [htop]
  by_cases hp : s.pcNat ≤ 0xFFE
  · have hne : s.pc.toNat ≠ 0xFFF := Nat.ne_of_lt (Nat.lt_succ_of_le hp)
    simp [fetch_ok hp, hne]
  · have heq : s.pc.toNat = 0xFFF := Nat.le_antisymm hpc (Nat.lt_of_not_le hp)
    simp [fetch_error (Nat.lt_of_not_le hp), State.pcNat, heq, firstBad_of_le, eq_comm]

/-- The access of the instruction, which starts at `I`, passes 0xFFF (R202 to R204, R225). -/
def Instr.AccessPassesTop (i : Instr) (s : State) : Prop :=
  (∃ x, i = .ldBVx x ∧ 0xFFF < s.i.toNat + 2) ∨
  (∃ x, (i = .ldMemVx x ∨ i = .ldVxMem x) ∧ 0xFFF < s.i.toNat + x.val) ∨
  ∃ x y n, i = .drw x y n ∧ 0x1000 < s.i.toNat + n.toNat

theorem faultOf_eq_some_iff {s : State} (hi : s.i.toNat ≤ 0xFFF) (i : Instr) (c : HaltCause) :
    Instr.faultOf i s = some c ↔
      (c = .stackOverflow ∧ s.sp.val = 16 ∧ ∃ nnn, i = .call nnn) ∨
      (c = .stackUnderflow ∧ s.sp.val = 0 ∧ i = .ret) ∨
      (c = .addressOutOfRange 0x1000 ∧ Instr.AccessPassesTop i s) := by
  have hcheck (n : Nat) : rangeCheck (s.indexAddr 0) n = some c ↔
      c = .addressOutOfRange 0x1000 ∧ 0x1000 < s.i.toNat + n := rangeCheck_eq_some_iff hi n c
  have hblock (k : Nat) : 0x1000 < s.i.toNat + (k + 1) ↔ 0xFFF < s.i.toNat + k := Nat.succ_lt_succ_iff
  cases i with
  | ldBVx => simp [Instr.faultOf, Instr.AccessPassesTop, hcheck, hblock 2]
  | ldMemVx | ldVxMem => simp [Instr.faultOf, Instr.AccessPassesTop, hcheck, hblock]
  | drw => simp [Instr.faultOf, Instr.AccessPassesTop, hcheck]
  | call | ret => simp [Instr.faultOf, Instr.AccessPassesTop, eq_comm, and_comm]
  | _ => simp [Instr.faultOf, Instr.AccessPassesTop]

theorem decodeWord_eq_ret_iff (w : Word) : decodeWord w = some .ret ↔ w = 0x00EE :=
  ⟨fun h => (encode_of_decodeWord h).symm, fun h => h ▸ decodeWord_encode .ret⟩

/-- All the ways a step ends in a fatal halt, in states the core can be in. -/
theorem step_halted_iff_of_inv {s t : State} (hs : Inv s) (hr : s.rs = .running) (h : step s = .next t) {c : HaltCause}
    (hc : c.fatal) :
    t.rs = .halted c ↔
      (c = .stackOverflow ∧ s.sp.val = 16 ∧ ∃ w nnn, fetch s = .ok w ∧ decodeWord w = some (.call nnn)) ∨
      (c = .stackUnderflow ∧ s.sp.val = 0 ∧ fetch s = .ok 0x00EE) ∨
      (c = .addressOutOfRange 0x1000 ∧
        (s.pc = 0xFFF ∨ ∃ w i, fetch s = .ok w ∧ decodeWord w = some i ∧ Instr.AccessPassesTop i s)) := by
  rw [step_halted_iff hr hc h, fetch_eq_error_iff (pc_le_of_running hs hr)]
  simp only [faultOf_eq_some_iff hs.index_legal]
  constructor
  · rintro (⟨hcause, hpc⟩ | ⟨w, i, hf, hd, ⟨hcause, hsp, nnn, rfl⟩ | ⟨hcause, hsp, rfl⟩ | ⟨hcause, ha⟩⟩)
    · exact .inr (.inr ⟨hcause, .inl hpc⟩)
    · exact .inl ⟨hcause, hsp, w, nnn, hf, hd⟩
    · exact .inr (.inl ⟨hcause, hsp, (decodeWord_eq_ret_iff w).mp hd ▸ hf⟩)
    · exact .inr (.inr ⟨hcause, .inr ⟨w, i, hf, hd, ha⟩⟩)
  · rintro (⟨hcause, hsp, w, nnn, hf, hd⟩ | ⟨hcause, hsp, hf⟩ | ⟨hcause, hpc | ⟨w, i, hf, hd, ha⟩⟩)
    · exact .inr ⟨w, _, hf, hd, .inl ⟨hcause, hsp, nnn, rfl⟩⟩
    · exact .inr ⟨_, .ret, hf, decodeWord_encode .ret, .inr (.inl ⟨hcause, hsp, rfl⟩)⟩
    · exact .inl ⟨hcause, hpc⟩
    · exact .inr ⟨w, i, hf, hd, .inr (.inr ⟨hcause, ha⟩)⟩

/-- Settles O13: the fatal halts of a step, read off for each cause; the invariant after the step gives the recorded
address. -/
theorem fatalCausesComeFromTheirInstructions : Obligations.FatalCausesComeFromTheirInstructions := by
  intro s t hs hr h
  have hover := step_halted_iff_of_inv hs hr h (c := .stackOverflow) trivial
  have hunder := step_halted_iff_of_inv hs hr h (c := .stackUnderflow) trivial
  have haddr (a : Word) := step_halted_iff_of_inv hs hr h (c := .addressOutOfRange a) trivial
  refine ⟨by simpa using hover, by simpa using hunder, ?_, fun a ha => ?_⟩
  · simp [haddr, Instr.AccessPassesTop]
  · have hlegal := (stepKeepsTheInvariant s t hs h).run_legal
    rw [ha] at hlegal
    exact hlegal.2

end Sys2Proof.Machine

namespace Sys2Proof.Machine

/-! # Proofs about reset (70_reset_and_hazards.md)

What an accepted image gives stands with the state (O51); here is the image that does not fit. -/

/-- R293: the range check of `reset` fails, and the refusal carries the length. -/
theorem hostOp_reset_of_long {image : List Byte} (h : 0xE00 < image.length) (s : State) :
    hostOp (.reset image) s = .refused (.imageTooLong image.length) :=
  if_neg (Nat.not_le_of_lt h)

/-- A run goes on from the old state after any refused operation, whatever the refusal. -/
theorem hostRun_cons_of_refused {op : HostOp} {s : State} {r : Refusal} (h : hostOp op s = .refused r)
    (ops : List HostOp) : hostRun (op :: ops) s = hostRun ops s := by
  rw [hostRun, h]

/-- Settles O52: the refusal of `reset`, and what a run makes of a refusal. -/
theorem longImagesAreRefused : Obligations.LongImagesAreRefused := by
  intro image s hlong
  have hrefused := hostOp_reset_of_long hlong s
  exact ⟨hrefused, hostRun_cons_of_refused hrefused⟩

end Sys2Proof.Machine
